-- ==== Sys2Proof/Word.lean ====
section
/-! DEFINITION. The widths the CORE works with and the two nibble shapes, a 2 by 2 state matrix and a one-column
word (00_scope.md R9, R12, R14). No command's meaning is here. -/

namespace Sys2Proof

/-- A 4-bit unsigned value (R9 NIBBLE_BITS, R12). -/
abbrev Nibble := BitVec 4

/-- A block, a key or the result register as one 16-bit integer (R9 BLOCK_BITS, KEY_BITS). -/
abbrev Block := BitVec 16

/-- One command word of 24 bits (30_encoding.md R70). -/
abbrev Command := BitVec 24

/-- A state matrix: the nibble `mRC` stands at row R, column C (R14; 10_state.md R21). -/
structure Matrix where
  m00 : Nibble
  m10 : Nibble
  m01 : Nibble
  m11 : Nibble
  deriving DecidableEq, Repr, Inhabited

/-- A word, or half key: one column of a matrix, row-0 nibble then row-1 nibble (R14; 43_key_schedule.md R170). -/
structure HalfKey where
  n0 : Nibble
  n1 : Nibble
  deriving DecidableEq, Repr, Inhabited

/-- Which round-key register a command names: K[0], K[1] or K[2] (10_state.md R22, R24). -/
inductive KeyIndex where
  | k0
  | k1
  | k2
  deriving DecidableEq, Repr

/-- The source's round index, 0 for the first expansion step and 1 for the second. A two-valued type: the
functions `g` and `expand_key` have no other index (43_key_schedule.md R173; 93 U1). -/
inductive Round where
  | first
  | second
  deriving DecidableEq, Repr, Inhabited

end Sys2Proof
end

