-- ==== Sys2Proof/Config.lean ====
section
/-! DEFINITION. What an implementation fixes and the spec leaves open: the contents of the two ROMs, the time a
command takes, and the host's choice of hexadecimal digits (00_scope.md R10; 93 U6, U9, U10, U11). Each is a constant
with no body, so that no proof can rest on a value of it. -/

namespace Sys2Proof

/-- The two read-only tables (20_memory.md R50): SBOX, 16 cells of one nibble addressed by a nibble, and RCON, 2 cells
of two nibbles (row 0, row 1) addressed by the round index. Nothing writes them (R52), so they are no part of State
(10_state.md R34, R35, R40). Every function of the model that reads a ROM takes them as an argument (R10, D14, D15). -/
structure Roms where
  sbox : Nibble → Nibble
  rcon : Round → HalfKey
  deriving Inhabited

/-- The case of the digits a host prints a block with (93 U6). -/
inductive HexCase where
  | upper
  | lower
  deriving DecidableEq, Repr, Inhabited

/-- The ROM contents of the machine at hand. The spec gives none and makes them a parameter (10_state.md R36, R37;
D14, D15). Assumption 2. -/
opaque Config.roms : Roms

/-- How many clock periods beyond the first a command with this opcode takes (R281). Assumption 7. -/
opaque Config.extraLatency : BitVec 4 → Nat

/-- `LATENCY(op)`, at least one clock period (70_reset_and_hazards.md R281). Only the port layer reads it. -/
def Config.latency (op : BitVec 4) : Nat := Config.extraLatency op + 1

/-- The host's digit case (45_host_ecb_layer.md R219; 93 U6). Only the host's rendering reads it. Assumption 12. -/
opaque Config.hexCase : HexCase

end Sys2Proof
end

