-- ==== Sys2Proof/Machine/State.lean ====
section
/-! DEFINITION. The state of the CORE as plain data (10_state.md), the reasons a step could stop, and the state after
reset (R41). -/

namespace Sys2Proof.Machine

/-- Why the Lean machine would stop with a fault. There is no such reason: the CORE's own faults (60_exceptions.md R231)
are next states that record FLT, CAUSE and FCMD (R233), and every command word in every state has exactly one outcome
(93_implementation_defined.md, end of Part 1). No definition of the model raises one. Safe. Assumption 6. -/
inductive Fault where
  deriving DecidableEq, Repr

/-- Why the Lean machine would refuse an instruction. -/
inductive Refusal where
  /-- Raised only by an arm of `exec` for an instruction that has no meaning yet; no such arm is left, so nothing raises
  it. Safe. -/
  | notModelled (mnemonic : String)
  deriving DecidableEq, Repr

/-- The fault cause recorded in `STATUS.CAUSE` (R31; 60_exceptions.md R231). Codes 4 to 15 never occur, so they have no
constructor; `Cause.code` gives the four bits. -/
inductive Cause where
  /-- No fault since reset. -/
  | noFault
  /-- The accepted word has opcode 0xF. -/
  | illegalOpcode
  /-- A must-be-zero bit is 1 or an index is out of range. -/
  | reservedField
  /-- A register the command reads holds no value. -/
  | invalidSource
  deriving DecidableEq, Repr

/-- One thing the host does to the CORE, as a model's input (R43; 70_reset_and_hazards.md R261): a command word the CORE
accepts, or a reset between two commands. -/
inductive HostEvent where
  | command (word : Command)
  | reset
  deriving DecidableEq, Repr

/-- The state of the CORE. A data register together with its valid bit is one field: `none` is valid bit 0, the register
HOLDS NO VALUE (R25, R41), and `some v` is valid bit 1 with contents `v` (93 U7 names this form). The valid bits by
their own names are in Machine/Flags.lean. Assumption 1. -/
structure State where
  /-- The state register S with VS (R21, R25). -/
  s : Option Matrix
  /-- K[0], the master key, with VK0 (R22, R25). -/
  k0 : Option Matrix
  /-- K[1], round key 1, with VK1 (R22, R25). -/
  k1 : Option Matrix
  /-- K[2], round key 2, with VK2 (R22, R25). -/
  k2 : Option Matrix
  /-- The result register DOUT with VD (R23, R25). -/
  dout : Option Block
  /-- The sticky fault flag (R30). -/
  flt : Bool
  /-- The fault cause (R31). -/
  cause : Cause
  /-- The word of the command that faulted, 0 when none has (R32). -/
  fcmd : Command
  /-- The MODEL's own field: what the host does from here on, next event first (R40, R43, R60). Assumption 3. -/
  input : List HostEvent
  deriving DecidableEq, Repr

/-- The machine right after reset (R41): no data register holds a value, so every valid bit is 0; FLT, CAUSE and FCMD
are 0. The host has presented nothing yet. -/
def State.reset : State where
  s := none
  k0 := none
  k1 := none
  k2 := none
  dout := none
  flt := false
  cause := .noFault
  fcmd := 0#24
  input := []

end Sys2Proof.Machine
end

