-- ==== Sys2Proof/Machine/Flags.lean ====
section
/-! DEFINITION. The valid bits, the fault cause code and the STATUS word (10_state.md R25, R29 to R31). The CORE has no
arithmetic flags and no condition codes (R27): these are all its status bits. -/

namespace Sys2Proof.Machine

/-- VS: S holds a value (R25). -/
def State.vs (s : State) : Bool := s.s.isSome

/-- VK0: K[0] holds a value (R25). -/
def State.vk0 (s : State) : Bool := s.k0.isSome

/-- VK1: K[1] holds a value (R25). -/
def State.vk1 (s : State) : Bool := s.k1.isSome

/-- VK2: K[2] holds a value (R25). -/
def State.vk2 (s : State) : Bool := s.k2.isSome

/-- VD: DOUT holds a value (R25). -/
def State.vd (s : State) : Bool := s.dout.isSome

/-- The code of a cause (R31; 60_exceptions.md R231). -/
def Cause.code : Cause → BitVec 4
  | .noFault => 0#4
  | .illegalOpcode => 1#4
  | .reservedField => 2#4
  | .invalidSource => 3#4

/-- STATUS (R29): bits 15:12 zero, 11:8 CAUSE, 7:6 zero, 5 FLT, 4 VD, 3 VK2, 2 VK1, 1 VK0, 0 VS. -/
def State.status (s : State) : BitVec 16 :=
  0#4 ++ s.cause.code ++ 0#2 ++ BitVec.ofBool s.flt ++ BitVec.ofBool s.vd ++ BitVec.ofBool s.vk2
    ++ BitVec.ofBool s.vk1 ++ BitVec.ofBool s.vk0 ++ BitVec.ofBool s.vs

end Sys2Proof.Machine
end

