-- ==== Sys2Proof/Syntax.lean ====
section
/-! DEFINITION. The fifteen commands of the S-AES CORE command set, version 1 (30_encoding.md R73), one constructor per
row of spec/opcode_table.json, with the operands of R72. -/

namespace Sys2Proof

/-- A decoded command. An index operand keeps the four bits of its field `cmd[19:16]`: which values are legal is
WellFormed's business (R78). -/
inductive Instr where
  | nop
  | lds (imm16 : Block)
  | ldk (imm16 : Block)
  | rds
  | rdk (k : BitVec 4)
  | ark (k : BitVec 4)
  | sub
  | shr
  | mix
  | kexp (r : BitVec 4)
  | ksch
  | enc
  | gfm (a b : Nibble)
  | sbx (a : Nibble)
  | gfn (r : BitVec 4) (w : BitVec 8)
  deriving DecidableEq, Repr

end Sys2Proof
end

