-- ==== Sys2Proof/WellFormed.lean ====
section
/-! DEFINITION. Which commands are well formed: the index ranges of 30_encoding.md R72 and R78. Every other operand is
legal at every value its field can hold. -/

namespace Sys2Proof

/-- The key index of RDK and ARK is at most 2 and the round index of KEXP and GFN at most 1 (R72, R75, R78). -/
def Instr.wellFormed : Instr → Bool
  | .rdk k => decide (k.toNat ≤ 2)
  | .ark k => decide (k.toNat ≤ 2)
  | .kexp r => decide (r.toNat ≤ 1)
  | .gfn r _ => decide (r.toNat ≤ 1)
  | .nop => true
  | .lds _ => true
  | .ldk _ => true
  | .rds => true
  | .sub => true
  | .shr => true
  | .mix => true
  | .ksch => true
  | .enc => true
  | .gfm _ _ => true
  | .sbx _ => true

end Sys2Proof
end

