-- ==== Sys2Proof/Decode.lean ====
section
/-! DEFINITION. From a 24-bit command word to a command or a decoding fault, and back (30_encoding.md R70 to R80). The
rows are those of R73; `decode` is the function of R75, and reads no register (R76). -/

namespace Sys2Proof

/-- The two ways a word spells no command (R75, R77, R78). -/
inductive DecodeFault where
  /-- The opcode is 0xF (R77). -/
  | illegalOpcode
  /-- A must-be-zero bit is 1, or the index is above the command's range (R78). -/
  | reservedField
  deriving DecidableEq, Repr

/-- `cmd[23:20]` (R70). -/
def opField (w : Command) : BitVec 4 := w.extractLsb' 20 4

/-- `cmd[19:16]`, the key index or round index (R70, R72). -/
def idxField (w : Command) : BitVec 4 := w.extractLsb' 16 4

/-- `cmd[15:0]`, the immediate (R70, R72). -/
def immField (w : Command) : Block := w.extractLsb' 0 16

/-- `cmd[7:4]`: `a` of GFM (R72). -/
def highNibbleField (w : Command) : Nibble := w.extractLsb' 4 4

/-- `cmd[3:0]`: `b` of GFM, `a` of SBX (R72). -/
def lowNibbleField (w : Command) : Nibble := w.extractLsb' 0 4

/-- `cmd[7:0]`: the word of GFN (R72). -/
def byteField (w : Command) : BitVec 8 := w.extractLsb' 0 8

/-- One row of the opcode map: `(w & mask) = pattern` (the table's match column) is needed, then the index range where
there is one, and then `build` reads the operands of R72. -/
structure OpcodeRow where
  mnemonic : String
  mask : Command
  pattern : Command
  maxIndex : Option Nat
  build : Command → Instr

/-- The row of R73 for each opcode; none for the reserved opcode 0xF. -/
def opcodeRow (op : BitVec 4) : Option OpcodeRow :=
  match op.toNat with
  | 0x0 => some ⟨"NOP", 0xFFFFFF#24, 0x000000#24, none, fun _ => .nop⟩
  | 0x1 => some ⟨"LDS", 0xFF0000#24, 0x100000#24, none, fun w => .lds (immField w)⟩
  | 0x2 => some ⟨"LDK", 0xFF0000#24, 0x200000#24, none, fun w => .ldk (immField w)⟩
  | 0x3 => some ⟨"RDS", 0xFFFFFF#24, 0x300000#24, none, fun _ => .rds⟩
  | 0x4 => some ⟨"RDK", 0xF0FFFF#24, 0x400000#24, some 2, fun w => .rdk (idxField w)⟩
  | 0x5 => some ⟨"ARK", 0xF0FFFF#24, 0x500000#24, some 2, fun w => .ark (idxField w)⟩
  | 0x6 => some ⟨"SUB", 0xFFFFFF#24, 0x600000#24, none, fun _ => .sub⟩
  | 0x7 => some ⟨"SHR", 0xFFFFFF#24, 0x700000#24, none, fun _ => .shr⟩
  | 0x8 => some ⟨"MIX", 0xFFFFFF#24, 0x800000#24, none, fun _ => .mix⟩
  | 0x9 => some ⟨"KEXP", 0xF0FFFF#24, 0x900000#24, some 1, fun w => .kexp (idxField w)⟩
  | 0xA => some ⟨"KSCH", 0xFFFFFF#24, 0xA00000#24, none, fun _ => .ksch⟩
  | 0xB => some ⟨"ENC", 0xFFFFFF#24, 0xB00000#24, none, fun _ => .enc⟩
  | 0xC => some ⟨"GFM", 0xFFFF00#24, 0xC00000#24, none, fun w => .gfm (highNibbleField w) (lowNibbleField w)⟩
  | 0xD => some ⟨"SBX", 0xFFFFF0#24, 0xD00000#24, none, fun w => .sbx (lowNibbleField w)⟩
  | 0xE => some ⟨"GFN", 0xF0FF00#24, 0xE00000#24, some 1, fun w => .gfn (idxField w) (byteField w)⟩
  | _ => none

/-- Does the word's index field pass the row's range check (R75, R78)? -/
def OpcodeRow.indexInRange (row : OpcodeRow) (w : Command) : Bool :=
  match row.maxIndex with
  | none => true
  | some m => decide ((idxField w).toNat ≤ m)

/-- `decode` of R75: total, in the order opcode, mask, index. It reads no state (R76, R80). -/
def decode (w : Command) : Except DecodeFault Instr :=
  match opcodeRow (opField w) with
  | none => .error .illegalOpcode
  | some row =>
    if w &&& row.mask = row.pattern then
      if row.indexInRange w then .ok (row.build w) else .error .reservedField
    else .error .reservedField

/-- A word from its three fields (R70). -/
def assembleFields (op idx : BitVec 4) (imm : Block) : Command := op ++ idx ++ imm

/-- The word of a command, from the formats of R71 and the operand fields of R72. -/
def encode : Instr → Command
  | .nop => assembleFields 0x0#4 0#4 0#16
  | .lds imm16 => assembleFields 0x1#4 0#4 imm16
  | .ldk imm16 => assembleFields 0x2#4 0#4 imm16
  | .rds => assembleFields 0x3#4 0#4 0#16
  | .rdk k => assembleFields 0x4#4 k 0#16
  | .ark k => assembleFields 0x5#4 k 0#16
  | .sub => assembleFields 0x6#4 0#4 0#16
  | .shr => assembleFields 0x7#4 0#4 0#16
  | .mix => assembleFields 0x8#4 0#4 0#16
  | .kexp r => assembleFields 0x9#4 r 0#16
  | .ksch => assembleFields 0xA#4 0#4 0#16
  | .enc => assembleFields 0xB#4 0#4 0#16
  | .gfm a b => assembleFields 0xC#4 0#4 (0#8 ++ a ++ b)
  | .sbx a => assembleFields 0xD#4 0#4 (0#12 ++ a)
  | .gfn r w => assembleFields 0xE#4 r (0#8 ++ w)

/-- The command that `decode` reads from a word given as a number of `nbits` bits, bit 0 the least significant as
spec/opcode_table.json numbers them. There is no other length than 24 bits (R70, R80): a shorter number stands for the
word whose upper bits are 0, and a number that needs more than 24 bits is no command word. -/
def decodeTableWord (nbits w : Nat) : Option Instr :=
  if nbits ≤ 24 ∧ w < 2 ^ 24 then
    match decode (BitVec.ofNat 24 w) with
    | .ok i => some i
    | .error _ => none
  else none

end Sys2Proof
end

