-- ==== Sys2Proof/Machine/Operands.lean ====
section
/-! DEFINITION. What the operand fields of a command stand for (30_encoding.md R72), and the packing of a 16-bit integer
as a state matrix and of a byte as a word (41_state_packing.md R120 to R124; 00_scope.md R14). -/

namespace Sys2Proof.Machine

/-- The nibble at row `r`, column `c`, the source's `state[row][col]` (R14). -/
def nib (m : Matrix) (r c : Fin 2) : Nibble :=
  match r, c with
  | 0, 0 => m.m00
  | 1, 0 => m.m10
  | 0, 1 => m.m01
  | 1, 1 => m.m11

/-- `int_to_state`: column-major, column 0 in the high byte, row 0 in the high nibble of each (R121). -/
def intToState (x : Block) : Matrix where
  m00 := x.extractLsb' 12 4
  m10 := x.extractLsb' 8 4
  m01 := x.extractLsb' 4 4
  m11 := x.extractLsb' 0 4

/-- `state_to_int`: `M[0][0] ++ M[1][0] ++ M[0][1] ++ M[1][1]` (R122). -/
def stateToInt (m : Matrix) : Block := m.m00 ++ m.m10 ++ m.m01 ++ m.m11

/-- The word `(n0, n1)` of a byte: row-0 nibble in the high half (R14, R72 for GFN's `w`). -/
def wordOfByte (b : BitVec 8) : HalfKey where
  n0 := b.extractLsb' 4 4
  n1 := b.extractLsb' 0 4

/-- A word as an 8-bit number, `(n0 << 4) | n1` (R14). -/
def byteOfWord (w : HalfKey) : BitVec 8 := w.n0 ++ w.n1

/-- `zext_16` of a nibble or a byte: zeros above (R12, R23). -/
def zext16 {n : Nat} (v : BitVec n) : Block := v.setWidth 16

/-- The key register an index field selects; none above 2 (R72, R78). -/
def keyIndexOf (k : BitVec 4) : Option KeyIndex :=
  match k.toNat with
  | 0 => some .k0
  | 1 => some .k1
  | 2 => some .k2
  | _ => none

/-- The round index an index field gives; none above 1 (R72, R78; 93 U1). -/
def roundOf (r : BitVec 4) : Option Round :=
  match r.toNat with
  | 0 => some .first
  | 1 => some .second
  | _ => none

/-- The index field of a key index. -/
def keyField : KeyIndex → BitVec 4
  | .k0 => 0#4
  | .k1 => 1#4
  | .k2 => 2#4

/-- The index field of a round index. -/
def roundField : Round → BitVec 4
  | .first => 0#4
  | .second => 1#4

/-- `K[r]`, the source of an expansion step (43_key_schedule.md R180). -/
def sourceKey : Round → KeyIndex
  | .first => .k0
  | .second => .k1

/-- `K[r+1]`, the destination of an expansion step (43_key_schedule.md R180). -/
def targetKey : Round → KeyIndex
  | .first => .k1
  | .second => .k2

end Sys2Proof.Machine
end

