-- ==== Sys2Proof/Machine/Ops.lean ====
section
/-! DEFINITION. The named operations every command is built from: reading and writing the registers, the checks that
come before all writes, taking a fault (60_exceptions.md R233), ignoring commands while faulted (R235), reset (R260), the
ROMs the machine at hand has, and taking the host's next event. The CORE has no return from a fault (R236): only reset
leaves the faulted state. -/

namespace Sys2Proof.Machine

/-- What a command answers. -/
abbrev Result := Host.Outcome State Fault Refusal

/-- The ROMs of the machine at hand: the configuration's (10_state.md R34, R35). Assumption 2. -/
def theRoms : Roms := Config.roms

/-- The textbook contents the spec names as the default of SBOX and RCON (10_state.md R36, R37; 93 G1, G2), supplied
from outside the source. PRESUMED: no rule needs them, only the spec's numeric examples do. Assumption 2. -/
def textbookRoms : Roms where
  sbox a :=
    match a.toNat with
    | 0x0 => 0x9#4
    | 0x1 => 0x4#4
    | 0x2 => 0xA#4
    | 0x3 => 0xB#4
    | 0x4 => 0xD#4
    | 0x5 => 0x1#4
    | 0x6 => 0x8#4
    | 0x7 => 0x5#4
    | 0x8 => 0x6#4
    | 0x9 => 0x2#4
    | 0xA => 0x0#4
    | 0xB => 0x3#4
    | 0xC => 0xC#4
    | 0xD => 0xE#4
    | 0xE => 0xF#4
    | _ => 0x7#4
  rcon r :=
    match r with
    | .first => ⟨0x8#4, 0x0#4⟩
    | .second => ⟨0x3#4, 0x0#4⟩

/-- `K[k]` with its valid bit (R22, R25). -/
def State.key (s : State) : KeyIndex → Option Matrix
  | .k0 => s.k0
  | .k1 => s.k1
  | .k2 => s.k2

/-- `S <- m` (R21); S then holds a value. -/
def State.writeS (s : State) (m : Matrix) : State := { s with s := some m }

/-- `K[k] <- m; VK[k] <- 1` (R22, R25). -/
def State.writeKey (s : State) (k : KeyIndex) (m : Matrix) : State :=
  match k with
  | .k0 => { s with k0 := some m }
  | .k1 => { s with k1 := some m }
  | .k2 => { s with k2 := some m }

/-- `VK1 <- 0; VK2 <- 0`: the round keys hold no value any more (R25; 41_state_packing.md R128). -/
def State.clearRoundKeys (s : State) : State := { s with k1 := none, k2 := none }

/-- `DOUT <- v; VD <- 1` (R23, R25). -/
def State.writeDout (s : State) (v : Block) : State := { s with dout := some v }

/-- Taking a fault (60_exceptions.md R233): FLT, CAUSE and FCMD are written and nothing else changes. Control goes
nowhere: there is no handler, no saved state and no mode. -/
def State.takeFault (s : State) (c : Cause) (w : Command) : State :=
  { s with flt := true, cause := c, fcmd := w }

/-- An accepted command: while FLT = 1 it is ignored and changes nothing (60_exceptions.md R235); otherwise `body` says
what it does. -/
def unlessFaulted (s : State) (body : Result) : Result :=
  if s.flt then .next s else body

/-- `require_valid(X)` (00_scope.md R15): with valid bit 0 the command `i` takes the fault INVALID_SOURCE, recording its own word,
before any write (60_exceptions.md R231, R234); otherwise `body` goes on with the contents. Assumption 5. -/
def requireValid {α : Type} (r : Option α) (i : Instr) (s : State) (body : α → Result) : Result :=
  match r with
  | none => .next (s.takeFault .invalidSource (encode i))
  | some v => body v

/-- The index operand of the command `i`: outside its range the word is illegal and takes the fault RESERVED_FIELD
(30_encoding.md R78; 60_exceptions.md R232). Decoding stops such a word first, so a step never comes here with one.
Assumption 4. -/
def requireIndex {α : Type} (x : Option α) (i : Instr) (s : State) (body : α → Result) : Result :=
  match x with
  | none => .next (s.takeFault .reservedField (encode i))
  | some v => body v

/-- The cause that records a decoding fault (60_exceptions.md R231). -/
def causeOfDecode : DecodeFault → Cause
  | .illegalOpcode => .illegalOpcode
  | .reservedField => .reservedField

/-- Accepting a word that spells no command: a fault with the cause decoding gives (30_encoding.md R77, R78;
60_exceptions.md R238), unless the CORE is already faulted (R235). -/
def acceptIllegal (d : DecodeFault) (w : Command) (s : State) : Result :=
  unlessFaulted s (.next (s.takeFault (causeOfDecode d) w))

/-- Reset (10_state.md R41; 70_reset_and_hazards.md R260): every piece of the CORE's state takes its reset value. What the
host does afterwards is not the CORE's to change. -/
def State.applyReset (s : State) : State := { State.reset with input := s.input }

/-- What the CORE finds when it looks at the host: nothing, a reset, or a command word it accepts; the state that comes
with it is the one in which that event has been taken from the input (R43, R60). -/
inductive Taken where
  | idle
  | reset (s : State)
  | command (w : Command) (s : State)
  deriving DecidableEq, Repr

/-- Takes the host's next event (R43). -/
def takeEvent (s : State) : Taken :=
  match s.input with
  | [] => .idle
  | .reset :: rest => .reset { s with input := rest }
  | .command w :: rest => .command w { s with input := rest }

/-- The host presents a command word, to be accepted next (R43). -/
def State.present (s : State) (w : Command) : State := { s with input := .command w :: s.input }

/-- The output port `dout` (R42): meaningful only while VD = 1, and no value before (93 U14). -/
def State.doutPort (s : State) : Option Block := s.dout

/-- The output port `status` (R29, R42). -/
def State.statusPort (s : State) : BitVec 16 := s.status

/-- The output port `fcmd` (R32, R42). -/
def State.fcmdPort (s : State) : Command := s.fcmd

end Sys2Proof.Machine
end

