-- ==== Sys2Proof/Machine/KeySchedule.lean ====
section
/-! DEFINITION. The g function, the expansion step, and the commands GFN, KEXP, KSCH (43_key_schedule.md). -/

namespace Sys2Proof.Machine

/-- The exclusive-or of two words, nibble by nibble (R170). -/
def xorWord (v w : HalfKey) : HalfKey where
  n0 := v.n0 ^^^ w.n0
  n1 := v.n1 ^^^ w.n1

/-- Swaps the two nibbles of a word (R171, first stage). -/
def rotateWord (w : HalfKey) : HalfKey where
  n0 := w.n1
  n1 := w.n0

/-- The S-box on both nibbles of a word (R171, second stage). -/
def substituteWord (roms : Roms) (w : HalfKey) : HalfKey where
  n0 := roms.sbox w.n0
  n1 := roms.sbox w.n1

/-- `g(half_key, round_index)`: rotate, substitute, add the round constant, in that order (R171); the constant is a word
like any other, added position by position (R172). -/
def g (roms : Roms) (w : HalfKey) (r : Round) : HalfKey :=
  xorWord (substituteWord roms (rotateWord w)) (roms.rcon r)

/-- Column 0 of a key matrix, `w0` (R170). -/
def columnZero (q : Matrix) : HalfKey where
  n0 := q.m00
  n1 := q.m10

/-- Column 1 of a key matrix, `w1` (R170). -/
def columnOne (q : Matrix) : HalfKey where
  n0 := q.m01
  n1 := q.m11

/-- The matrix with the given columns (R175, reassembly). -/
def ofColumns (c0 c1 : HalfKey) : Matrix where
  m00 := c0.n0
  m10 := c0.n1
  m01 := c1.n0
  m11 := c1.n1

/-- `expand_key(prev_round_key, round_index)`: w2 = w0 ^ g(w1), w3 = w2 ^ w1 (R175). -/
def expandKey (roms : Roms) (q : Matrix) (r : Round) : Matrix :=
  let w2 := xorWord (columnZero q) (g roms (columnOne q) r)
  let w3 := xorWord w2 (columnOne q)
  ofColumns w2 w3

/-- `GFN r, w` with given ROMs (R179): DOUT <- zext_16 of `g(w, r)` as a byte. Reads no register. -/
def gfnCommand (roms : Roms) (r : BitVec 4) (w : BitVec 8) (s : State) : Result :=
  unlessFaulted s <|
    requireIndex (roundOf r) (.gfn r w) s fun ri =>
      .next (s.writeDout (zext16 (byteOfWord (g roms (wordOfByte w) ri))))

/-- `GFN r, w` (R179). -/
def execGfn (r : BitVec 4) (w : BitVec 8) (s : State) : Result := gfnCommand theRoms r w s

/-- `KEXP r` with given ROMs (R180): K[r+1] <- expand_key(K[r], r). -/
def kexpCommand (roms : Roms) (r : BitVec 4) (s : State) : Result :=
  unlessFaulted s <|
    requireIndex (roundOf r) (.kexp r) s fun ri =>
      requireValid (s.key (sourceKey ri)) (.kexp r) s fun q =>
        .next (s.writeKey (targetKey ri) (expandKey roms q ri))

/-- `KEXP r` (R180). -/
def execKexp (r : BitVec 4) (s : State) : Result := kexpCommand theRoms r s

/-- `KSCH` with given ROMs (R181): both steps, the second on the result of the first (R177). -/
def kschCommand (roms : Roms) (s : State) : Result :=
  unlessFaulted s <|
    requireValid s.k0 .ksch s fun q =>
      let rk1 := expandKey roms q .first
      let rk2 := expandKey roms rk1 .second
      .next ((s.writeKey .k1 rk1).writeKey .k2 rk2)

/-- `KSCH` (R181). -/
def execKsch (s : State) : Result := kschCommand theRoms s

end Sys2Proof.Machine
end

