-- ==== Sys2Proof/Machine/FieldMul.lean ====
section
/-! DEFINITION. The GF(2⁴) multiplier modulo x⁴+x+1 and the command GFM (40_field_multiplier.md). -/

namespace Sys2Proof.Machine

/-- The working values of the multiplier's loop, at least five bits wide as R102 asks; not registers (10_state.md R39). -/
structure MulLoop where
  a : BitVec 5
  b : BitVec 5
  acc : BitVec 5
  deriving DecidableEq, Repr

/-- One iteration of R102: accumulate on the old `a` and `b`, then shift both, then reduce the shifted `a` when it is
0x10 or more (90_conflicts.md C7). -/
def mulIteration (l : MulLoop) : MulLoop where
  acc := if l.b.getLsbD 0 then l.acc ^^^ l.a else l.acc
  b := l.b >>> 1
  a := if (l.a <<< 1).toNat ≥ 0x10 then (l.a <<< 1) ^^^ 0x13#5 else l.a <<< 1

/-- `k` iterations. -/
def mulLoop : Nat → MulLoop → MulLoop
  | 0, l => l
  | k + 1, l => mulLoop k (mulIteration l)

/-- `gf_mul(a, b)`: four iterations from a zero accumulator, masked to four bits (R100, R102). -/
def gfMul (a b : Nibble) : Nibble :=
  ((mulLoop 4 ⟨a.setWidth 5, b.setWidth 5, 0#5⟩).acc &&& 0xF#5).setWidth 4

/-- `GFM a, b` (R109): DOUT <- zext_16(gf_mul(a, b)). Reads no register. -/
def execGfm (a b : Nibble) (s : State) : Result :=
  unlessFaulted s (.next (s.writeDout (zext16 (gfMul a b))))

end Sys2Proof.Machine
end

