-- ==== Sys2Proof/Machine/Rounds.lean ====
section
/-! DEFINITION. The four round transforms and the commands ARK, SUB, SBX, SHR, MIX (42_round_transforms.md). Each transform
is a function of its arguments (41_state_packing.md R125); one that reads a ROM takes the ROMs as an argument. -/

namespace Sys2Proof.Machine

/-- `add_round_key`: element-wise exclusive-or (R140). -/
def addRoundKey (m q : Matrix) : Matrix where
  m00 := m.m00 ^^^ q.m00
  m10 := m.m10 ^^^ q.m10
  m01 := m.m01 ^^^ q.m01
  m11 := m.m11 ^^^ q.m11

/-- `substitute_nibbles`: each nibble replaced by its S-box entry (R146). -/
def substituteNibbles (roms : Roms) (m : Matrix) : Matrix where
  m00 := roms.sbox m.m00
  m10 := roms.sbox m.m10
  m01 := roms.sbox m.m01
  m11 := roms.sbox m.m11

/-- `shift_rows`: the two nibbles of row 1 change places (R150). -/
def shiftRows (m : Matrix) : Matrix where
  m00 := m.m00
  m10 := m.m11
  m01 := m.m01
  m11 := m.m10

/-- `mix_columns`: each column times [[1,4],[4,1]] (R153). -/
def mixColumns (m : Matrix) : Matrix where
  m00 := gfMul 1#4 m.m00 ^^^ gfMul 4#4 m.m10
  m10 := gfMul 4#4 m.m00 ^^^ gfMul 1#4 m.m10
  m01 := gfMul 1#4 m.m01 ^^^ gfMul 4#4 m.m11
  m11 := gfMul 4#4 m.m01 ^^^ gfMul 1#4 m.m11

/-- `ARK k` (R145): S <- add_round_key(S, K[k]). -/
def execArk (k : BitVec 4) (s : State) : Result :=
  unlessFaulted s <|
    requireIndex (keyIndexOf k) (.ark k) s fun ki =>
      requireValid s.s (.ark k) s fun m =>
        requireValid (s.key ki) (.ark k) s fun q => .next (s.writeS (addRoundKey m q))

/-- `SUB` with given ROMs (R148): S <- substitute_nibbles(S). -/
def subCommand (roms : Roms) (s : State) : Result :=
  unlessFaulted s <|
    requireValid s.s .sub s fun m => .next (s.writeS (substituteNibbles roms m))

/-- `SUB` (R148). -/
def execSub (s : State) : Result := subCommand theRoms s

/-- `SBX a` with given ROMs (R149): DOUT <- zext_16(MemRead(SBOX, a)). Reads no register. -/
def sbxCommand (roms : Roms) (a : Nibble) (s : State) : Result :=
  unlessFaulted s (.next (s.writeDout (zext16 (roms.sbox a))))

/-- `SBX a` (R149). -/
def execSbx (a : Nibble) (s : State) : Result := sbxCommand theRoms a s

/-- `SHR` (R152): S <- shift_rows(S). -/
def execShr (s : State) : Result :=
  unlessFaulted s <|
    requireValid s.s .shr s fun m => .next (s.writeS (shiftRows m))

/-- `MIX` (R157): S <- mix_columns(S). -/
def execMix (s : State) : Result :=
  unlessFaulted s <|
    requireValid s.s .mix s fun m => .next (s.writeS (mixColumns m))

end Sys2Proof.Machine
end

