-- ==== Sys2Proof/Machine/Engine.lean ====
section
/-! DEFINITION. The single-block cipher engine and the command ENC (44_cipher_engine.md). Only the encryption direction
exists (00_scope.md R8; 90_conflicts.md C1). -/

namespace Sys2Proof.Machine

/-- `encrypt_block(P, Q0, Q1, Q2)`: initial key addition, a full round, and a final round without mix-columns (R190,
R191). -/
def encryptBlock (roms : Roms) (p q0 q1 q2 : Matrix) : Matrix :=
  let s0 := addRoundKey p q0
  let s1 := addRoundKey (mixColumns (shiftRows (substituteNibbles roms s0))) q1
  addRoundKey (shiftRows (substituteNibbles roms s1)) q2

/-- The eight states of the engine in order, `ark0`, `sub1`, `shr1`, `mix1`, `ark1`, `sub2`, `shr2`, `ark2`: what the
source's trace shows (R191). Inside `ENC` they are left nowhere (R193); a host reads them one transform at a time (R194). -/
def encryptStages (roms : Roms) (p q0 q1 q2 : Matrix) : List Matrix :=
  let ark0 := addRoundKey p q0
  let sub1 := substituteNibbles roms ark0
  let shr1 := shiftRows sub1
  let mix1 := mixColumns shr1
  let ark1 := addRoundKey mix1 q1
  let sub2 := substituteNibbles roms ark1
  let shr2 := shiftRows sub2
  [ark0, sub1, shr1, mix1, ark1, sub2, shr2, addRoundKey shr2 q2]

/-- `encrypt(p, k)` on 16-bit integers, with the schedule of 43_key_schedule.md R177 (R190). -/
def encrypt (roms : Roms) (p k : Block) : Block :=
  let rk0 := intToState k
  let rk1 := expandKey roms rk0 .first
  let rk2 := expandKey roms rk1 .second
  stateToInt (encryptBlock roms (intToState p) rk0 rk1 rk2)

/-- `ENC` with given ROMs (R192): S <- encrypt_block(S, K[0], K[1], K[2]), DOUT <- the same as an integer. It never
expands a key (90_conflicts.md C2), and no intermediate state is left anywhere (R193). -/
def encCommand (roms : Roms) (s : State) : Result :=
  unlessFaulted s <|
    requireValid s.s .enc s fun p =>
      requireValid s.k0 .enc s fun q0 =>
        requireValid s.k1 .enc s fun q1 =>
          requireValid s.k2 .enc s fun q2 =>
            let c := encryptBlock roms p q0 q1 q2
            .next ((s.writeS c).writeDout (stateToInt c))

/-- `ENC` (R192). -/
def execEnc (s : State) : Result := encCommand theRoms s

end Sys2Proof.Machine
end

