-- ==== Sys2Proof/Machine/Packing.lean ====
section
/-! DEFINITION. NOP and the commands that move 16-bit values into and out of the CORE: LDS, LDK, RDS, RDK
(41_state_packing.md R126 to R131). -/

namespace Sys2Proof.Machine

/-- `NOP` (R126): no register, valid bit or status bit changes. -/
def execNop (s : State) : Result := unlessFaulted s (.next s)

/-- `LDS imm16` (R127): S <- int_to_state(imm16). -/
def execLds (imm16 : Block) (s : State) : Result :=
  unlessFaulted s (.next (s.writeS (intToState imm16)))

/-- `LDK imm16` (R128): K[0] <- int_to_state(imm16), and the round keys hold no value any more. -/
def execLdk (imm16 : Block) (s : State) : Result :=
  unlessFaulted s (.next ((s.writeKey .k0 (intToState imm16)).clearRoundKeys))

/-- `RDS` (R129): DOUT <- state_to_int(S). -/
def execRds (s : State) : Result :=
  unlessFaulted s <|
    requireValid s.s .rds s fun m => .next (s.writeDout (stateToInt m))

/-- `RDK k` (R130): DOUT <- state_to_int(K[k]). -/
def execRdk (k : BitVec 4) (s : State) : Result :=
  unlessFaulted s <|
    requireIndex (keyIndexOf k) (.rdk k) s fun ki =>
      requireValid (s.key ki) (.rdk k) s fun q => .next (s.writeDout (stateToInt q))

end Sys2Proof.Machine
end

