-- ==== Sys2Proof/Machine/Dispatch.lean ====
section
/-! DEFINITION. One arm per command: which definition is its meaning. -/

namespace Sys2Proof.Machine
open Sys2Proof

def exec (i : Instr) (s : State) : Host.Outcome State Fault Refusal :=
  match i with
  | .nop => Sys2Proof.Machine.execNop s
  | .lds imm16 => Sys2Proof.Machine.execLds imm16 s
  | .ldk imm16 => Sys2Proof.Machine.execLdk imm16 s
  | .rds => Sys2Proof.Machine.execRds s
  | .rdk k => Sys2Proof.Machine.execRdk k s
  | .ark k => Sys2Proof.Machine.execArk k s
  | .sub => Sys2Proof.Machine.execSub s
  | .shr => Sys2Proof.Machine.execShr s
  | .mix => Sys2Proof.Machine.execMix s
  | .kexp r => Sys2Proof.Machine.execKexp r s
  | .ksch => Sys2Proof.Machine.execKsch s
  | .enc => Sys2Proof.Machine.execEnc s
  | .gfm a b => Sys2Proof.Machine.execGfm a b s
  | .sbx a => Sys2Proof.Machine.execSbx a s
  | .gfn r w => Sys2Proof.Machine.execGfn r w s

end Sys2Proof.Machine
end

