-- ==== Sys2Proof/Machine/Accept.lean ====
section
/-! DEFINITION. Accepting one command word (10_state.md R43): decode it, then execute the command or record the decoding
fault. The valid bits are looked at after decoding only (30_encoding.md R76; 60_exceptions.md R238). -/

namespace Sys2Proof.Machine

/-- The effect of one accepted command word. -/
def accept (w : Command) (s : State) : Result :=
  match decode w with
  | .ok i => exec i s
  | .error d => acceptIllegal d w s

end Sys2Proof.Machine
end

