-- ==== Sys2Proof/Machine/Step.lean ====
section
/-! DEFINITION. One step of the machine: the CORE takes the host's next event and, when it is a command word, accepts it
as one atomic step (10_state.md R43; 20_memory.md R60; 70_reset_and_hazards.md R275). -/

namespace Sys2Proof.Machine

/-- One step. With nothing presented the CORE does nothing and holds its registers (R20; 60_exceptions.md R250). -/
def step (s : State) : Host.Outcome State Fault Refusal :=
  match takeEvent s with
  | .idle => .next s
  | .reset t => .next t.applyReset
  | .command w t => accept w t

/-- `s` with the command word `w` presented by the host, so that the next step accepts it. There is no program memory
(20_memory.md R51): the word goes to the command port. Assumption 3. -/
def State.withFetchWord (s : State) (_nbits w : Nat) : State := s.present (BitVec.ofNat 24 w)

end Sys2Proof.Machine
end

