-- ==== Sys2Proof/Machine/Assembler.lean ====
section
/-! DEFINITION. Host software, no hardware: the assembler of 30_encoding.md section 6 (R81, R82). Text is a list of
characters. Assumption 14. -/

namespace Sys2Proof.Machine

/-! ### Pseudo-instructions (R82) -/

/-- `SETKEY key16`: loads a master key and expands it. -/
def setKey (key : Block) : List Instr := [.ldk key, .ksch]

/-- `ENCBLK pt16`: encrypts one block under the keys already expanded. -/
def encBlk (pt : Block) : List Instr := [.lds pt, .enc]

/-- `ROUND1`: the full round. -/
def roundOne : List Instr := [.sub, .shr, .mix, .ark 1#4]

/-- `ROUND2`: the final round. -/
def roundTwo : List Instr := [.sub, .shr, .ark 2#4]

/-- `ENCSTEPS`: the same result as ENC, one transform per command (44_cipher_engine.md R194). -/
def encSteps : List Instr := [.ark 0#4] ++ roundOne ++ roundTwo ++ [.rds]

/-- The trace hook: every transform of ENCSTEPS with its result read out after it (44_cipher_engine.md R194). -/
def encTraced : List Instr := (Instr.ark 0#4 :: (roundOne ++ roundTwo)).flatMap fun i => [i, .rds]

/-! ### Reading a line (R81) -/

/-- Why a line is not assembled. -/
inductive AsmError where
  | unknownMnemonic
  | operandCount
  | badNumeral
  | operandRange
  deriving DecidableEq, Repr

/-- The value of one digit, in either letter case. -/
def digitValue (c : Char) : Option Nat :=
  let n := c.toNat
  if 48 ≤ n ∧ n ≤ 57 then some (n - 48)
  else if 65 ≤ n ∧ n ≤ 70 then some (n - 55)
  else if 97 ≤ n ∧ n ≤ 102 then some (n - 87)
  else none

/-- Reads digits in a base, most significant first, on top of what is read already. -/
def readDigits (base : Nat) : Nat → List Char → Option Nat
  | acc, [] => some acc
  | acc, c :: cs =>
    match digitValue c with
    | none => none
    | some d => if d < base then readDigits base (acc * base + d) cs else none

/-- A numeral: `0x` hexadecimal, `0b` binary, else decimal; at least one digit. -/
def readNumeral : List Char → Option Nat
  | [] => none
  | '0' :: 'x' :: c :: cs => readDigits 16 0 (c :: cs)
  | '0' :: 'b' :: c :: cs => readDigits 2 0 (c :: cs)
  | c :: cs => readDigits 10 0 (c :: cs)

/-- A space or a tab. -/
def isBlank (c : Char) : Bool := c == ' ' || c == '\t'

/-- The text before the first `;`, which starts a comment. -/
def beforeComment (cs : List Char) : List Char := cs.takeWhile (· != ';')

/-- The pieces of a text between commas. -/
def splitCommas : List Char → List (List Char)
  | [] => [[]]
  | c :: cs =>
    match splitCommas cs with
    | [] => [[]]
    | p :: ps => if c == ',' then [] :: p :: ps else (c :: p) :: ps

/-- A text without blanks before and after it. -/
def trimBlanks (cs : List Char) : List Char := ((cs.dropWhile isBlank).reverse.dropWhile isBlank).reverse

/-- The operand numerals of a line's operand text; an empty text has none. -/
def readOperands (cs : List Char) : Except AsmError (List Nat) :=
  match trimBlanks cs with
  | [] => .ok []
  | ops =>
    match (splitCommas ops).mapM (fun p => readNumeral (trimBlanks p)) with
    | none => .error .badNumeral
    | some ns => .ok ns

/-- An operand that must be below `bound` (R72, R81). -/
def operandBelow (bound n : Nat) (k : Nat → List Instr) : Except AsmError (List Instr) :=
  if n < bound then .ok (k n) else .error .operandRange

/-- A command without operands. -/
def noOperand (is : List Instr) : List Nat → Except AsmError (List Instr)
  | [] => .ok is
  | _ => .error .operandCount

/-- A command with one operand below `bound`. -/
def oneOperand (bound : Nat) (k : Nat → List Instr) : List Nat → Except AsmError (List Instr)
  | [n] => operandBelow bound n k
  | _ => .error .operandCount

/-- A command with two operands, each below its bound. -/
def twoOperands (bound₁ bound₂ : Nat) (k : Nat → Nat → List Instr) : List Nat → Except AsmError (List Instr)
  | [m, n] => if m < bound₁ then operandBelow bound₂ n (k m) else .error .operandRange
  | _ => .error .operandCount

/-- What a mnemonic with its operands stands for: one command, or the expansion of a pseudo-instruction (R81, R82). -/
def assembleCommand (mnemonic : List Char) (ops : List Nat) : Except AsmError (List Instr) :=
  match mnemonic with
  | ['N', 'O', 'P'] => noOperand [.nop] ops
  | ['L', 'D', 'S'] => oneOperand 65536 (fun n => [.lds (BitVec.ofNat 16 n)]) ops
  | ['L', 'D', 'K'] => oneOperand 65536 (fun n => [.ldk (BitVec.ofNat 16 n)]) ops
  | ['R', 'D', 'S'] => noOperand [.rds] ops
  | ['R', 'D', 'K'] => oneOperand 3 (fun n => [.rdk (BitVec.ofNat 4 n)]) ops
  | ['A', 'R', 'K'] => oneOperand 3 (fun n => [.ark (BitVec.ofNat 4 n)]) ops
  | ['S', 'U', 'B'] => noOperand [.sub] ops
  | ['S', 'H', 'R'] => noOperand [.shr] ops
  | ['M', 'I', 'X'] => noOperand [.mix] ops
  | ['K', 'E', 'X', 'P'] => oneOperand 2 (fun n => [.kexp (BitVec.ofNat 4 n)]) ops
  | ['K', 'S', 'C', 'H'] => noOperand [.ksch] ops
  | ['E', 'N', 'C'] => noOperand [.enc] ops
  | ['G', 'F', 'M'] => twoOperands 16 16 (fun m n => [.gfm (BitVec.ofNat 4 m) (BitVec.ofNat 4 n)]) ops
  | ['S', 'B', 'X'] => oneOperand 16 (fun n => [.sbx (BitVec.ofNat 4 n)]) ops
  | ['G', 'F', 'N'] => twoOperands 2 256 (fun m n => [.gfn (BitVec.ofNat 4 m) (BitVec.ofNat 8 n)]) ops
  | ['S', 'E', 'T', 'K', 'E', 'Y'] => oneOperand 65536 (fun n => setKey (BitVec.ofNat 16 n)) ops
  | ['E', 'N', 'C', 'B', 'L', 'K'] => oneOperand 65536 (fun n => encBlk (BitVec.ofNat 16 n)) ops
  | ['R', 'O', 'U', 'N', 'D', '1'] => noOperand roundOne ops
  | ['R', 'O', 'U', 'N', 'D', '2'] => noOperand roundTwo ops
  | ['E', 'N', 'C', 'S', 'T', 'E', 'P', 'S'] => noOperand encSteps ops
  | _ => .error .unknownMnemonic

/-- One line: a comment is dropped, a blank line holds no command, and else the first word is the mnemonic and the rest
its operands (R81). DESIGN CHOICE, assumption 14: of a line's several faults the one reported is a numeral that cannot be
read before an unknown mnemonic, then the count of the operands, then the first operand out of range. -/
def assembleLine (line : List Char) : Except AsmError (List Instr) :=
  match trimBlanks (beforeComment line) with
  | [] => .ok []
  | body =>
    match readOperands (body.dropWhile (fun c => !isBlank c)) with
    | .error e => .error e
    | .ok ops => assembleCommand (body.takeWhile (fun c => !isBlank c)) ops

/-- The words of a program, one line after the other; the first line that is in error stops the assembler. -/
def assembleProgram : List (List Char) → Except AsmError (List Command)
  | [] => .ok []
  | line :: rest =>
    match assembleLine line with
    | .error e => .error e
    | .ok is =>
      match assembleProgram rest with
      | .error e => .error e
      | .ok ws => .ok (is.map encode ++ ws)

end Sys2Proof.Machine
end

