-- ==== Sys2Proof/Machine/HostLayer.lean ====
section
/-! DEFINITION. Host software around the CORE, no hardware (45_host_ecb_layer.md R205): text conversion, the ECB layer,
the command sequence by which a host runs it, and the rendering of results. The CORE's definitions depend on none of
it. -/

namespace Sys2Proof.Machine

/-- One byte of the host's output. -/
abbrev Byte := BitVec 8

/-- Why the host refuses or gives up; nothing is emitted then (R222). -/
inductive HostError where
  /-- A text block is not exactly 2 characters (R207, R222). -/
  | blockLength
  /-- A character's code is above 255 (R208, D23; 93 U5). -/
  | characterCode
  /-- The key is outside [0, 65535] (R221; 93 U3). -/
  | keyRange
  /-- The CORE is faulted, or shows no result where one was expected (R217, R222, D29). -/
  | coreFault
  deriving DecidableEq, Repr

/-! ### Text and key (R206 to R211, R218, R221) -/

/-- The code of a character, 0 to 255 (R208). Assumption 16. -/
def charCode (c : Char) : Except HostError Byte :=
  if c.toNat ≤ 255 then .ok (BitVec.ofNat 8 c.toNat) else .error .characterCode

/-- `text_block_to_int`: the first character is the high byte (R206); any other length is a domain error (R207). DESIGN CHOICE,
assumption 11: a text of another length that also holds a code above 255 (R208) is reported for its length. -/
def textBlockToInt : List Char → Except HostError Block
  | [ch0, ch1] =>
    match charCode ch0, charCode ch1 with
    | .ok b0, .ok b1 => .ok (b0 ++ b1)
    | .error e, _ => .error e
    | _, .error e => .error e
  | _ => .error .blockLength

/-- The character NUL, code 0 (R208, R210). -/
def nulChar : Char := Char.ofNat 0

/-- Consecutive 2-character chunks; only the last can be short (R209). -/
def chunks : List Char → List (List Char)
  | [] => []
  | [c] => [[c]]
  | c0 :: c1 :: rest => [c0, c1] :: chunks rest

/-- A chunk of length 1 gets one NUL character on the right (R210; 90_conflicts.md C4). -/
def padChunk : List Char → List Char
  | [c] => [c, nulChar]
  | cs => cs

/-- The integers of a list of chunks, or the first error. -/
def chunksToInts : List (List Char) → Except HostError (List Block)
  | [] => .ok []
  | c :: cs =>
    match textBlockToInt (padChunk c), chunksToInts cs with
    | .ok b, .ok bs => .ok (b :: bs)
    | .error e, _ => .error e
    | _, .error e => .error e

/-- The blocks of a text (R209, R210). -/
def textBlocks (text : List Char) : Except HostError (List Block) := chunksToInts (chunks text)

/-- The host's check of a key, at the boundary (R221). -/
def checkKey (key : Int) : Except HostError Block :=
  if 0 ≤ key ∧ key ≤ 65535 then .ok (BitVec.ofInt 16 key) else .error .keyRange

/-! ### ECB (R212 to R217) -/

/-- Two bytes, most significant first (R213). -/
def serialise (c : Block) : List Byte := [c.extractLsb' 8 8, c.extractLsb' 0 8]

/-- Each block encrypted by itself under the same key, in block order (R212, R213). -/
def encryptBlocks (roms : Roms) (key : Block) : List Block → List Byte
  | [] => []
  | b :: bs => serialise (encrypt roms b key) ++ encryptBlocks roms key bs

/-- `encrypt_ecb(text, key)` (R214), with the host's checks before anything else (R221, R222). Assumption 11. -/
def encryptEcb (roms : Roms) (text : List Char) (key : Int) : Except HostError (List Byte) :=
  match checkKey key with
  | .error e => .error e
  | .ok k =>
    match textBlocks text with
    | .error e => .error e
    | .ok bs => .ok (encryptBlocks roms k bs)

/-- Single-block encryption asked for directly: exactly 2 characters, no padding (R218, R222). -/
def encryptSingle (roms : Roms) (text : List Char) (key : Int) : Except HostError Block :=
  match checkKey key with
  | .error e => .error e
  | .ok k =>
    match textBlockToInt text with
    | .error e => .error e
    | .ok b => .ok (encrypt roms b k)

/-! ### The host at the CORE's port (R217) -/

/-- The host sends one command word and the CORE completes it. -/
def issueWord (s : State) (w : Command) : State :=
  match step (s.present w) with
  | .next t => t
  | .fault _ => s
  | .refused _ => s

/-- The host sends commands one after the other. -/
def issue (is : List Instr) (s : State) : State := (is.map encode).foldl issueWord s

/-- For each block: `ENCBLK b`, then read `dout` and append its two bytes; FLT = 1 at any point ends the whole operation
(R217, R222). -/
def runBlocks : List Block → State → Except HostError (List Byte)
  | [], _ => .ok []
  | b :: bs, s =>
    let t := issue (encBlk b) s
    if t.flt then .error .coreFault
    else
      match t.doutPort, runBlocks bs t with
      | some c, .ok out => .ok (serialise c ++ out)
      | none, _ => .error .coreFault
      | _, .error e => .error e

/-- The command sequence of R217 on a CORE in state `s`: `SETKEY key` once, then the blocks in order. -/
def runEcb (text : List Char) (key : Int) (s : State) : Except HostError (List Byte) :=
  match checkKey key with
  | .error e => .error e
  | .ok k =>
    match textBlocks text with
    | .error e => .error e
    | .ok bs =>
      let t := issue (setKey k) s
      if t.flt then .error .coreFault else runBlocks bs t

/-! ### Rendering (R219, R220) -/

/-- One hexadecimal digit (R219; 93 U6). -/
def hexDigit (hc : HexCase) (n : Nibble) : Char :=
  if n.toNat < 10 then Char.ofNat (48 + n.toNat)
  else
    match hc with
    | .upper => Char.ofNat (55 + n.toNat)
    | .lower => Char.ofNat (87 + n.toNat)

/-- A block as 4 hexadecimal digits (R219). -/
def hexText (hc : HexCase) (b : Block) : List Char :=
  [hexDigit hc (b.extractLsb' 12 4), hexDigit hc (b.extractLsb' 8 4), hexDigit hc (b.extractLsb' 4 4),
    hexDigit hc (b.extractLsb' 0 4)]

/-- The standard base64 alphabet (R220; 93 G4). PRESUMED. Assumption 13. -/
def base64Digit (v : BitVec 6) : Char :=
  if v.toNat < 26 then Char.ofNat (65 + v.toNat)
  else if v.toNat < 52 then Char.ofNat (71 + v.toNat)
  else if v.toNat < 62 then Char.ofNat (v.toNat - 4)
  else if v.toNat = 62 then '+'
  else '/'

/-- Standard base64 with `=` padding (R220; 90_conflicts.md C3, C6). -/
def base64 : List Byte → List Char
  | [] => []
  | [x] =>
    let v : BitVec 12 := x ++ 0#4
    [base64Digit (v.extractLsb' 6 6), base64Digit (v.extractLsb' 0 6), '=', '=']
  | [x, y] =>
    let v : BitVec 18 := x ++ y ++ 0#2
    [base64Digit (v.extractLsb' 12 6), base64Digit (v.extractLsb' 6 6), base64Digit (v.extractLsb' 0 6), '=']
  | x :: y :: z :: rest =>
    let v : BitVec 24 := x ++ y ++ z
    base64Digit (v.extractLsb' 18 6) :: base64Digit (v.extractLsb' 12 6) :: base64Digit (v.extractLsb' 6 6)
      :: base64Digit (v.extractLsb' 0 6) :: base64 rest

/-- The two renderings of a single-block result: hexadecimal in the host's digit case, and base64 (R219). -/
def renderSingle (c : Block) : List Char × List Char := (hexText Config.hexCase c, base64 (serialise c))

/-- The rendering of an ECB result (R219). -/
def renderEcb (out : List Byte) : List Char := base64 out

end Sys2Proof.Machine
end

