-- ==== Sys2Proof/Machine/Port.lean ====
section
/-! DEFINITION. The command port clock edge by clock edge: acceptance, `cmd_ready`, the time a command takes, and reset at
any moment (10_state.md R42, R43; 70_reset_and_hazards.md R260, R261, R275, R281, R282). The machine of Machine/Step.lean
needs none of this (R43): this layer says how the pins give it its sequence of events. Assumption 8. -/

namespace Sys2Proof.Machine

/-- The input pins at one active clock edge (R42). -/
structure Pins where
  rst : Bool
  cmdValid : Bool
  cmd : Command
  deriving DecidableEq, Repr

/-- The CORE behind its port: the state the outputs show, and the accepted command whose writes are not yet visible with
the clock periods it still takes. -/
structure PortState where
  core : State
  busy : Option (Command × Nat)
  deriving DecidableEq, Repr

/-- The port right after reset (R41). -/
def PortState.reset : PortState where
  core := State.reset
  busy := none

/-- `cmd_ready`: 0 from acceptance until the command's writes are visible (R43). -/
def PortState.cmdReady (p : PortState) : Bool := p.busy.isNone

/-- The state after an accepted word has completed (R43, R275). -/
def commit (w : Command) (s : State) : State :=
  match accept w s with
  | .next t => t
  | .fault _ => s
  | .refused _ => s

/-- Is a command accepted at this edge (R43)? -/
def accepts (p : PortState) (x : Pins) : Bool := !x.rst && p.cmdReady && x.cmdValid

/-- One active clock edge, where `lat op` is the number of clock periods a command with that opcode takes (R281). Reset
comes before everything and discards a command in progress (R261). A command accepted while FLT = 1 is ignored at once
and `cmd_ready` stays 1 (R43). -/
def edge (lat : BitVec 4 → Nat) (p : PortState) (x : Pins) : PortState :=
  if x.rst then { core := p.core.applyReset, busy := none }
  else
    match p.busy with
    | some (w, n + 2) => { p with busy := some (w, n + 1) }
    | some (w, _) => { core := commit w p.core, busy := none }
    | none =>
      if x.cmdValid && !p.core.flt then { p with busy := some (x.cmd, lat (opField x.cmd)) } else p

/-- The edge of the machine at hand. -/
def clockEdge (p : PortState) (x : Pins) : PortState := edge Config.latency p x

/-- What has happened at this edge, in the terms of the command sequence (R43): a reset, a command completed, or an
accepted command ignored. -/
def edgeEvents (p : PortState) (x : Pins) : List HostEvent :=
  if x.rst then [.reset]
  else
    match p.busy with
    | some (_, _ + 2) => []
    | some (w, _) => [.command w]
    | none => if x.cmdValid && p.core.flt then [.command x.cmd] else []

/-- A sequence of clock edges. -/
def edges (lat : BitVec 4 → Nat) : PortState → List Pins → PortState
  | p, [] => p
  | p, x :: xs => edges lat (edge lat p x) xs

/-- The events of a sequence of clock edges, in order. -/
def eventsOf (lat : BitVec 4 → Nat) : PortState → List Pins → List HostEvent
  | _, [] => []
  | p, x :: xs => edgeEvents p x ++ eventsOf lat (edge lat p x) xs

end Sys2Proof.Machine
end

