-- ==== Sys2Proof/Safety.lean ====
section
/-! DEFINITION. What a good state and a good run are: the coherence of the key registers (10_state.md R26), what the fault
registers say of each other (60_exceptions.md R231, R233), the end of a run (70_reset_and_hazards.md R283), and what each
command needs to have happened since reset (R266). -/

namespace Sys2Proof.Machine

/-- R26: a valid round key is the expansion of the valid key before it. -/
def KeysCoherent (roms : Roms) (s : State) : Prop :=
  (∀ q1, s.k1 = some q1 → ∃ q0, s.k0 = some q0 ∧ q1 = expandKey roms q0 .first) ∧
    ∀ q2, s.k2 = some q2 → ∃ q1, s.k1 = some q1 ∧ q2 = expandKey roms q1 .second

/-- Which registers a command reads hold a value (10_state.md R28; 60_exceptions.md R232, last column negated). -/
def sourcesValid (i : Instr) (s : State) : Bool :=
  match i with
  | .nop => true
  | .lds _ => true
  | .ldk _ => true
  | .rds => s.vs
  | .rdk k => (keyIndexOf k).all fun ki => (s.key ki).isSome
  | .ark k => s.vs && (keyIndexOf k).all fun ki => (s.key ki).isSome
  | .sub => s.vs
  | .shr => s.vs
  | .mix => s.vs
  | .kexp r => (roundOf r).all fun ri => (s.key (sourceKey ri)).isSome
  | .ksch => s.vk0
  | .enc => s.vs && s.vk0 && s.vk1 && s.vk2
  | .gfm _ _ => true
  | .sbx _ => true
  | .gfn _ _ => true

/-- The cause R231 gives a word accepted in a state whose valid bits are those of `s`, in the order of R238. -/
def causeFor (w : Command) (s : State) : Cause :=
  match decode w with
  | .error .illegalOpcode => .illegalOpcode
  | .error .reservedField => .reservedField
  | .ok i => if sourcesValid i s then .noFault else .invalidSource

/-- The fault registers agree (R30 to R32, R231): without a fault CAUSE and FCMD are 0; with one, FCMD is a word that
faults, with the recorded cause, on the very valid bits that are still there (R235). -/
def FaultRecordCoherent (s : State) : Prop :=
  if s.flt then s.cause ≠ .noFault ∧ causeFor s.fcmd s = s.cause else s.cause = .noFault ∧ s.fcmd = 0#24

/-- Running the machine through a list of host events, from `s` with that list as its input. -/
def runEvents (es : List HostEvent) (s : State) : Host.Outcome State Fault Refusal :=
  Host.Core.run Sys2Proof.core es.length { s with input := es }

/-- The events of a host that sends these commands. -/
def sends (is : List Instr) : List HostEvent := is.map fun i => .command (encode i)

/-- A run ended well: FLT = 0 at its end (R283). -/
def goodEnd (s : State) : Bool := !s.flt

/-- The commands after the last `LDK`; none when there is no `LDK` (R266). -/
def sinceLastLdk : List Instr → Option (List Instr)
  | [] => none
  | i :: rest =>
    match sinceLastLdk rest, i with
    | some h, _ => some h
    | none, .ldk _ => some rest
    | none, _ => none

/-- Is there an `LDS` among the commands? -/
def hasLds (h : List Instr) : Bool :=
  h.any fun i => match i with
    | .lds _ => true
    | _ => false

/-- A `KEXP 0` or a `KSCH` (R266). -/
def firstStepDone (h : List Instr) : Bool := h.any fun i => i == .kexp 0#4 || i == .ksch

/-- A `KSCH`, or a `KEXP 0` followed later by a `KEXP 1` (R266). -/
def secondStepDone : List Instr → Bool
  | [] => false
  | i :: rest => i == .ksch || (i == .kexp 0#4 && rest.any (· == .kexp 1#4)) || secondStepDone rest

/-- An `LDK` has been sent. -/
def keyLoaded (h : List Instr) : Bool := (sinceLastLdk h).isSome

/-- Since the last `LDK`, round key 1 has been made. -/
def roundKeyOneMade (h : List Instr) : Bool := (sinceLastLdk h).any firstStepDone

/-- Since the last `LDK`, round key 2 has been made. -/
def roundKeyTwoMade (h : List Instr) : Bool := (sinceLastLdk h).any secondStepDone

/-- Is key register `k` filled by the commands sent? -/
def keyMade (h : List Instr) : KeyIndex → Bool
  | .k0 => keyLoaded h
  | .k1 => roundKeyOneMade h
  | .k2 => roundKeyTwoMade h

/-- The valid bits of a CORE that is not faulted are what the commands `h`, oldest first, make them (R25, R266). -/
def HistoryCoherent (h : List Instr) (s : State) : Prop :=
  s.flt = false ∧ s.vs = hasLds h ∧ s.vk0 = keyLoaded h ∧ s.vk1 = roundKeyOneMade h ∧ s.vk2 = roundKeyTwoMade h

/-- The table of R266: has what the command needs happened among the commands `h` sent since reset, oldest first? -/
def needsMet (h : List Instr) (i : Instr) : Bool :=
  match i with
  | .nop => true
  | .lds _ => true
  | .ldk _ => true
  | .rds => hasLds h
  | .rdk k => (keyIndexOf k).all (keyMade h)
  | .ark k => hasLds h && (keyIndexOf k).all (keyMade h)
  | .sub => hasLds h
  | .shr => hasLds h
  | .mix => hasLds h
  | .kexp r => (roundOf r).all fun ri => keyMade h (sourceKey ri)
  | .ksch => keyLoaded h
  | .enc => hasLds h && roundKeyTwoMade h
  | .gfm _ _ => true
  | .sbx _ => true
  | .gfn _ _ => true

/-- Every command of the sequence has what it needs among those sent before it (R265, R266). -/
def disciplined : List Instr → List Instr → Bool
  | _, [] => true
  | h, i :: rest => i.wellFormed && needsMet h i && disciplined (h ++ [i]) rest

end Sys2Proof.Machine
end

