-- ==== Sys2Proof/Certificates/Slice0/Obligations.lean ====
section
/-! DEFINITION. What the provers are asked: statements taken from the numbered rules of spec/. A statement whose docstring
says DERIVED rests on an inference the spec marks as its own or on a choice of this model (the log entry is named). -/

open Sys2Proof Sys2Proof.Machine

namespace Sys2Proof.Claims

/-- The state a fault leaves (R233), field by field. -/
def faulted (c : Cause) (w : Command) (s : State) : State := { s with flt := true, cause := c, fcmd := w }

/-- A word with an assigned opcode that has a 1 in a must-be-zero bit or an index above its range: the conditions of
60_exceptions.md R232 on the word's own bits. -/
def reservedBits (w : Command) : Prop :=
  let op := w.extractLsb' 20 4
  let idx := (w.extractLsb' 16 4).toNat
  (op ∈ [0x0#4, 0x3#4, 0x6#4, 0x7#4, 0x8#4, 0xA#4, 0xB#4] ∧ w.extractLsb' 0 20 ≠ 0#20) ∨
    (op ∈ [0x1#4, 0x2#4] ∧ idx ≠ 0) ∨
    (op ∈ [0x4#4, 0x5#4] ∧ (2 < idx ∨ w.extractLsb' 0 16 ≠ 0#16)) ∨
    (op = 0x9#4 ∧ (1 < idx ∨ w.extractLsb' 0 16 ≠ 0#16)) ∨
    (op = 0xC#4 ∧ w.extractLsb' 8 12 ≠ 0#12) ∨
    (op = 0xD#4 ∧ w.extractLsb' 4 16 ≠ 0#16) ∨
    (op = 0xE#4 ∧ (1 < idx ∨ w.extractLsb' 8 8 ≠ 0#8))

/-- Every word with opcode `op` faults RESERVED_FIELD in decoding exactly when its own bits break R232's condition. -/
def reservedExactly (op : BitVec 4) (violated : Command → Prop) : Prop :=
  ∀ w : Command, w.extractLsb' 20 4 = op → (decode w = .error .reservedField ↔ violated w)

/-- The polynomial over GF(2) a nibble stands for: bit `i` is the coefficient of `x^i` (R101). -/
noncomputable def poly (v : Nibble) : Polynomial (ZMod 2) :=
  ∑ i ∈ Finset.range 4, if v.getLsbD i then Polynomial.X ^ i else 0

/-- `x⁴+x+1` (R100). -/
noncomputable def fieldPoly : Polynomial (ZMod 2) := Polynomial.X ^ 4 + Polynomial.X + 1

/-- The columnwise product with [[9,2],[2,9]], the matrix the source calls inverse mix-columns (R160). A property only: the
CORE has no unit that applies it. -/
def unmixColumns (m : Matrix) : Matrix where
  m00 := gfMul 9#4 m.m00 ^^^ gfMul 2#4 m.m10
  m10 := gfMul 2#4 m.m00 ^^^ gfMul 9#4 m.m10
  m01 := gfMul 9#4 m.m01 ^^^ gfMul 2#4 m.m11
  m11 := gfMul 2#4 m.m01 ^^^ gfMul 9#4 m.m11

/-- `encrypt_ecb` answers the bytes of the first text followed by those of the second. -/
def bothOutputs (x y : Except HostError (List Byte)) : Except HostError (List Byte) :=
  match x, y with
  | .ok out, .ok out' => .ok (out ++ out')
  | .error e, _ => .error e
  | _, .error e => .error e

/-- Every character of a text has a code the host accepts (R208). -/
def codesAccepted (text : List Char) : Prop := ∀ c ∈ text, c.toNat ≤ 255

end Sys2Proof.Claims

open Sys2Proof.Claims

/-! ### Encoding and decoding (30_encoding.md) -/

/-- DERIVED (R70 to R75). Every operand of a well-formed command survives its word. -/
def Obligations.DecodeOfEncodeGivesTheCommand : Prop :=
  ∀ i : Instr, i.wellFormed = true → decode (encode i) = .ok i

/-- DERIVED (R73, R75). Each legal word has one meaning, and that command's word is the very word. -/
def Obligations.EncodeOfDecodeGivesTheWord : Prop :=
  ∀ (w : Command) (i : Instr), decode w = .ok i → encode i = w ∧ i.wellFormed = true

/-- R77: a word with opcode 0xF is illegal whatever its other bits, no other word is illegal for that cause, and accepting
one raises ILLEGAL_OPCODE. -/
def Obligations.OpcodeFRaisesIllegalOpcode : Prop :=
  (∀ w : Command, decode w = .error .illegalOpcode ↔ w.extractLsb' 20 4 = 0xF#4) ∧
    ∀ (w : Command) (s : State), s.flt = false → w.extractLsb' 20 4 = 0xF#4 →
      accept w s = .next (faulted .illegalOpcode w s)

/-- R78: a must-be-zero bit that is 1, or an index above the range, under an assigned opcode; accepting such a word raises
RESERVED_FIELD. -/
def Obligations.ReservedFieldsRaiseReservedField : Prop :=
  (∀ w : Command, decode w = .error .reservedField ↔ reservedBits w) ∧
    ∀ (w : Command) (s : State), s.flt = false → reservedBits w →
      accept w s = .next (faulted .reservedField w s)

/-- DERIVED (R83, marked derived). The worked encodings, each a word written out digit by digit. -/
def Obligations.WorkedEncodingsDecode : Prop :=
  decode 0x204AF5#24 = .ok (.ldk 0x4AF5#16) ∧ decode 0x10D728#24 = .ok (.lds 0xD728#16) ∧
    decode 0x510000#24 = .ok (.ark 1#4) ∧ decode 0x910000#24 = .ok (.kexp 1#4) ∧
    decode 0xC0004E#24 = .ok (.gfm 4#4 0xE#4) ∧ decode 0xD00009#24 = .ok (.sbx 9#4) ∧
    decode 0xE10028#24 = .ok (.gfn 1#4 0x28#8) ∧ decode 0xB00000#24 = .ok .enc ∧
    decode 0x000000#24 = .ok .nop

/-- DERIVED (R79, marked derived). How many of the 2^24 words are commands. -/
def Obligations.LegalWordCount : Prop :=
  Nat.card { w : Command // ∃ i, decode w = .ok i } = 131871

/-! ### One step, reset, outcomes -/

/-- DERIVED (R43; the input list is the model's choice, entry 3). What one step does with the host's next event: nothing to
do, a reset, a command word that decodes, a word that does not. -/
def Obligations.StepRunsTheDecodedCommand : Prop :=
  (∀ s : State, s.input = [] → step s = .next s) ∧
    (∀ (s : State) (rest : List HostEvent), s.input = .reset :: rest →
      step s = .next { State.reset with input := rest }) ∧
    (∀ (s : State) (w : Command) (rest : List HostEvent) (i : Instr), s.input = .command w :: rest →
      decode w = .ok i → step s = exec i { s with input := rest }) ∧
    ∀ (s : State) (w : Command) (rest : List HostEvent) (d : DecodeFault), s.input = .command w :: rest →
      decode w = .error d → s.flt = false →
        step s = .next (faulted (causeOfDecode d) w { s with input := rest })

/-- R41: after a reset, from any state whatever, no data register holds a value, the valid bits, FLT, CAUSE and FCMD are 0
and STATUS as a whole is 0x0000; and `State.reset` is such a state. -/
def Obligations.ResetLeavesTheValuesOfTheTable : Prop :=
  ∀ t : State, (t = State.reset ∨ ∃ (s : State) (rest : List HostEvent), s.input = .reset :: rest ∧ step s = .next t) →
    t.s = none ∧ t.k0 = none ∧ t.k1 = none ∧ t.k2 = none ∧ t.dout = none ∧
      t.vs = false ∧ t.vk0 = false ∧ t.vk1 = false ∧ t.vk2 = false ∧ t.vd = false ∧
      t.flt = false ∧ t.cause = .noFault ∧ t.fcmd = 0#24 ∧ t.status = 0#16

/-- DERIVED (93 Part 1, last sentence; R241, R282). Every command, every word and every step has exactly one outcome, a
next state: nothing in the command set is left undefined and nothing stops. -/
def Obligations.EveryCommandAnswersANextState : Prop :=
  (∀ (i : Instr) (s : State), ∃ t, exec i s = .next t) ∧
    (∀ (w : Command) (s : State), ∃ t, accept w s = .next t) ∧
    ∀ s : State, ∃ t, step s = .next t

/-! ### Faults (60_exceptions.md) -/

/-- R233, R234, R238: an accepted word that faults writes FLT, CAUSE and FCMD and nothing else, with the first cause that
applies; one that does not leaves the fault registers as they were. -/
def Obligations.FaultEntryRecordsTheFirstCause : Prop :=
  ∀ (w : Command) (s : State), s.flt = false →
    (causeFor w s ≠ .noFault → accept w s = .next (faulted (causeFor w s) w s)) ∧
      (causeFor w s = .noFault →
        ∃ t, accept w s = .next t ∧ t.flt = false ∧ t.cause = s.cause ∧ t.fcmd = s.fcmd)

/-- R235: while FLT = 1 every accepted word, legal or not, changes nothing at all, one after another. -/
def Obligations.FaultedCoreIgnoresEveryCommand : Prop :=
  ∀ s : State, s.flt = true →
    (∀ i : Instr, exec i s = .next s) ∧ (∀ w : Command, accept w s = .next s) ∧
      ∀ ws : List Command, runEvents (ws.map .command) s = .next { s with input := [] }

/-- R236: the only way out of the faulted state is reset, which also empties every data register; no command clears FLT, and
no second fault is recorded. -/
def Obligations.OnlyResetLeavesTheFaultedState : Prop :=
  ∀ s t : State, s.flt = true → step s = .next t →
    (∃ rest, s.input = .reset :: rest ∧ t = { State.reset with input := rest }) ∨
      t = { s with input := s.input.tail }

/-- DERIVED (R26, marked derived; R30 to R32; R266, marked derived). The invariants hold at reset, where no command has been sent. -/
def Obligations.InvariantsHoldAtReset : Prop :=
  KeysCoherent theRoms State.reset ∧ FaultRecordCoherent State.reset ∧ HistoryCoherent [] State.reset

/-- DERIVED (R26, marked derived). Valid round keys always belong to the master key now in K[0], whatever state the step starts
from. -/
def Obligations.StepKeepsTheKeysCoherent : Prop :=
  ∀ s t : State, KeysCoherent theRoms s → step s = .next t → KeysCoherent theRoms t

/-- DERIVED (R30 to R32, R231, R235). FLT, CAUSE, FCMD and the valid bits go on telling one story: CAUSE is the cause FCMD's word
has on the valid bits that are still there. -/
def Obligations.StepKeepsTheFaultRecordCoherent : Prop :=
  ∀ s t : State, FaultRecordCoherent s → step s = .next t → FaultRecordCoherent t

/-! ### Status and registers (10_state.md) -/

/-- R29: every bit of STATUS, its reset value, and the codes of CAUSE that R31 lists. -/
def Obligations.StatusWordFields : Prop :=
  (∀ s : State, s.status.getLsbD 0 = s.s.isSome ∧ s.status.getLsbD 1 = s.k0.isSome ∧
    s.status.getLsbD 2 = s.k1.isSome ∧ s.status.getLsbD 3 = s.k2.isSome ∧ s.status.getLsbD 4 = s.dout.isSome ∧
    s.status.getLsbD 5 = s.flt ∧ s.status.extractLsb' 6 2 = 0#2 ∧ s.status.extractLsb' 8 4 = s.cause.code ∧
    s.status.extractLsb' 12 4 = 0#4) ∧
    Cause.noFault.code = 0#4 ∧ Cause.illegalOpcode.code = 1#4 ∧ Cause.reservedField.code = 2#4 ∧
    Cause.invalidSource.code = 3#4 ∧ State.reset.status = 0x0000#16

/-- R25: which command sets and clears which valid bit; a command that faults changes none, and reset clears all. -/
def Obligations.ValidBitsAreSetAndClearedByTheTable : Prop :=
  (∀ (i : Instr) (s t : State), exec i s = .next t → s.flt = false → t.flt = false →
    (t.vs = true ↔ s.vs = true ∨ ∃ x, i = .lds x) ∧
      (t.vk0 = true ↔ s.vk0 = true ∨ ∃ x, i = .ldk x) ∧
      (t.vk1 = true ↔ (s.vk1 = true ∧ ¬∃ x, i = .ldk x) ∨ i = .kexp 0#4 ∨ i = .ksch) ∧
      (t.vk2 = true ↔ (s.vk2 = true ∧ ¬∃ x, i = .ldk x) ∨ i = .kexp 1#4 ∨ i = .ksch) ∧
      (t.vd = true ↔ s.vd = true ∨ i = .rds ∨ (∃ k, i = .rdk k) ∨ i = .enc ∨ (∃ a b, i = .gfm a b) ∨
        (∃ a, i = .sbx a) ∨ ∃ r w, i = .gfn r w)) ∧
    (∀ (w : Command) (s t : State), accept w s = .next t → t.flt = true →
      t.vs = s.vs ∧ t.vk0 = s.vk0 ∧ t.vk1 = s.vk1 ∧ t.vk2 = s.vk2 ∧ t.vd = s.vd) ∧
    ∀ (s t : State) (rest : List HostEvent), s.input = .reset :: rest → step s = .next t →
      t.vs = false ∧ t.vk0 = false ∧ t.vk1 = false ∧ t.vk2 = false ∧ t.vd = false

/-- DERIVED (R21, R22, R23, R28). The frame of every command at once: a register changes only under the commands that write
it (for K[1] and K[2] also LDK, which empties them), the fault registers only by taking a fault, and the host's
input never. -/
def Obligations.OnlyTheListedCommandsChangeARegister : Prop :=
  ∀ (i : Instr) (s t : State), exec i s = .next t →
    (t.s = s.s ∨ (∃ x, i = .lds x) ∨ (∃ k, i = .ark k) ∨ i = .sub ∨ i = .shr ∨ i = .mix ∨ i = .enc) ∧
      (t.k0 = s.k0 ∨ ∃ x, i = .ldk x) ∧
      (t.k1 = s.k1 ∨ (∃ x, i = .ldk x) ∨ i = .kexp 0#4 ∨ i = .ksch) ∧
      (t.k2 = s.k2 ∨ (∃ x, i = .ldk x) ∨ i = .kexp 1#4 ∨ i = .ksch) ∧
      (t.dout = s.dout ∨ i = .rds ∨ (∃ k, i = .rdk k) ∨ i = .enc ∨ (∃ a b, i = .gfm a b) ∨
        (∃ a, i = .sbx a) ∨ ∃ r w, i = .gfn r w) ∧
      ((t.flt = s.flt ∧ t.cause = s.cause ∧ t.fcmd = s.fcmd) ∨
        (s.flt = false ∧ ∃ c, t = faulted c (encode i) s)) ∧
      t.input = s.input

/-- DERIVED (R23, R28). No command reads DOUT: with any other contents of DOUT, or none, the command leaves the same state in
every other register, and the same DOUT unless it leaves DOUT alone. -/
def Obligations.NoCommandReadsDout : Prop :=
  ∀ (i : Instr) (s t : State) (d : Option Block), exec i s = .next t →
    ∃ t', exec i { s with dout := d } = .next t' ∧ t' = { t with dout := t'.dout } ∧
      (t'.dout = t.dout ∨ (t.dout = s.dout ∧ t'.dout = d))

/-! ### The commands: loads and reads (41_state_packing.md) -/

/-- R126. -/
def Obligations.NopChangesNothing : Prop :=
  (∀ s : State, exec .nop s = .next s) ∧ decode 0x000000#24 = .ok .nop ∧
    reservedExactly 0x0#4 fun w => w.extractLsb' 0 20 ≠ 0#20

/-- R127. -/
def Obligations.LdsLoadsTheState : Prop :=
  (∀ (imm16 : Block) (s : State), s.flt = false →
    exec (.lds imm16) s =
      .next { s with s := some ⟨imm16.extractLsb' 12 4, imm16.extractLsb' 8 4, imm16.extractLsb' 4 4,
        imm16.extractLsb' 0 4⟩ }) ∧
    (∀ imm16 : Block, decode (0x10#8 ++ imm16) = .ok (.lds imm16)) ∧
    reservedExactly 0x1#4 fun w => w.extractLsb' 16 4 ≠ 0#4

/-- R128. -/
def Obligations.LdkLoadsTheKeyAndEmptiesTheRoundKeys : Prop :=
  (∀ (imm16 : Block) (s : State), s.flt = false →
    exec (.ldk imm16) s =
      .next { s with
        k0 := some ⟨imm16.extractLsb' 12 4, imm16.extractLsb' 8 4, imm16.extractLsb' 4 4, imm16.extractLsb' 0 4⟩
        k1 := none
        k2 := none }) ∧
    (∀ imm16 : Block, decode (0x20#8 ++ imm16) = .ok (.ldk imm16)) ∧
    reservedExactly 0x2#4 fun w => w.extractLsb' 16 4 ≠ 0#4

/-- R129. -/
def Obligations.RdsReadsTheState : Prop :=
  (∀ (s : State) (m : Matrix), s.flt = false → s.s = some m →
    exec .rds s = .next { s with dout := some (m.m00 ++ m.m10 ++ m.m01 ++ m.m11) }) ∧
    (∀ s : State, s.flt = false → s.s = none → exec .rds s = .next (faulted .invalidSource 0x300000#24 s)) ∧
    decode 0x300000#24 = .ok .rds ∧ reservedExactly 0x3#4 fun w => w.extractLsb' 0 20 ≠ 0#20

/-- R130. -/
def Obligations.RdkReadsARoundKey : Prop :=
  (∀ (s : State) (q : Matrix), s.flt = false →
    (s.k0 = some q → exec (.rdk 0#4) s = .next { s with dout := some (q.m00 ++ q.m10 ++ q.m01 ++ q.m11) }) ∧
      (s.k1 = some q → exec (.rdk 1#4) s = .next { s with dout := some (q.m00 ++ q.m10 ++ q.m01 ++ q.m11) }) ∧
      (s.k2 = some q → exec (.rdk 2#4) s = .next { s with dout := some (q.m00 ++ q.m10 ++ q.m01 ++ q.m11) })) ∧
    (∀ s : State, s.flt = false →
      (s.k0 = none → exec (.rdk 0#4) s = .next (faulted .invalidSource 0x400000#24 s)) ∧
        (s.k1 = none → exec (.rdk 1#4) s = .next (faulted .invalidSource 0x410000#24 s)) ∧
        (s.k2 = none → exec (.rdk 2#4) s = .next (faulted .invalidSource 0x420000#24 s))) ∧
    (∀ k : KeyIndex, decode (0x4#4 ++ keyField k ++ 0#16) = .ok (.rdk (keyField k))) ∧
    reservedExactly 0x4#4 fun w => 2 < (w.extractLsb' 16 4).toNat ∨ w.extractLsb' 0 16 ≠ 0#16

/-! ### The commands: round transforms (42_round_transforms.md) -/

/-- R145, with R140 for the value: nibble by nibble, and so the exclusive-or of the two integers (R141). -/
def Obligations.ArkAddsARoundKey : Prop :=
  (∀ (k : KeyIndex) (s : State) (m q : Matrix), s.flt = false → s.s = some m → s.key k = some q →
    ∃ n : Matrix, exec (.ark (keyField k)) s = .next { s with s := some n } ∧
      (∀ r c, nib n r c = nib m r c ^^^ nib q r c)) ∧
    (∀ (k : KeyIndex) (s : State), s.flt = false → s.s = none ∨ s.key k = none →
      exec (.ark (keyField k)) s = .next (faulted .invalidSource (0x5#4 ++ keyField k ++ 0#16) s)) ∧
    (∀ k : KeyIndex, decode (0x5#4 ++ keyField k ++ 0#16) = .ok (.ark (keyField k))) ∧
    reservedExactly 0x5#4 fun w => 2 < (w.extractLsb' 16 4).toNat ∨ w.extractLsb' 0 16 ≠ 0#16

/-- R148, with R146 for the value; for whatever S-box the machine has. -/
def Obligations.SubSubstitutesEveryNibble : Prop :=
  (∀ (s : State) (m : Matrix), s.flt = false → s.s = some m →
    ∃ n : Matrix, exec .sub s = .next { s with s := some n } ∧
      (∀ r c, nib n r c = theRoms.sbox (nib m r c))) ∧
    (∀ s : State, s.flt = false → s.s = none → exec .sub s = .next (faulted .invalidSource 0x600000#24 s)) ∧
    decode 0x600000#24 = .ok .sub ∧ reservedExactly 0x6#4 fun w => w.extractLsb' 0 20 ≠ 0#20

/-- R149; for whatever S-box the machine has. -/
def Obligations.SbxReadsOneEntry : Prop :=
  (∀ (a : Nibble) (s : State), s.flt = false →
    exec (.sbx a) s = .next { s with dout := some (0#12 ++ theRoms.sbox a) }) ∧
    (∀ a : Nibble, decode (0xD0000#20 ++ a) = .ok (.sbx a)) ∧
    reservedExactly 0xD#4 fun w => w.extractLsb' 4 16 ≠ 0#16

/-- R152, with R150 for the value. -/
def Obligations.ShrSwapsTheSecondRow : Prop :=
  (∀ (s : State) (m : Matrix), s.flt = false → s.s = some m →
    ∃ n : Matrix, exec .shr s = .next { s with s := some n } ∧ nib n 0 0 = nib m 0 0 ∧ nib n 0 1 = nib m 0 1 ∧
      nib n 1 0 = nib m 1 1 ∧ nib n 1 1 = nib m 1 0) ∧
    (∀ s : State, s.flt = false → s.s = none → exec .shr s = .next (faulted .invalidSource 0x700000#24 s)) ∧
    decode 0x700000#24 = .ok .shr ∧ reservedExactly 0x7#4 fun w => w.extractLsb' 0 20 ≠ 0#20

/-- R157, with R153 for the value: each column `c` by itself. -/
def Obligations.MixMultipliesEachColumn : Prop :=
  (∀ (s : State) (m : Matrix), s.flt = false → s.s = some m →
    ∃ n : Matrix, exec .mix s = .next { s with s := some n } ∧
      ∀ c, nib n 0 c = gfMul 1#4 (nib m 0 c) ^^^ gfMul 4#4 (nib m 1 c) ∧
        nib n 1 c = gfMul 4#4 (nib m 0 c) ^^^ gfMul 1#4 (nib m 1 c)) ∧
    (∀ s : State, s.flt = false → s.s = none → exec .mix s = .next (faulted .invalidSource 0x800000#24 s)) ∧
    decode 0x800000#24 = .ok .mix ∧ reservedExactly 0x8#4 fun w => w.extractLsb' 0 20 ≠ 0#20

/-! ### The commands: key schedule (43_key_schedule.md) -/

/-- R180, with R175 for the value nibble by nibble; for whatever ROMs the machine has. -/
def Obligations.KexpExpandsOneStep : Prop :=
  (∀ (s : State) (q : Matrix), s.flt = false → s.k0 = some q →
    exec (.kexp 0#4) s = .next { s with k1 := some (expandKey theRoms q .first) }) ∧
    (∀ (s : State) (q : Matrix), s.flt = false → s.k1 = some q →
      exec (.kexp 1#4) s = .next { s with k2 := some (expandKey theRoms q .second) }) ∧
    (∀ (roms : Roms) (q : Matrix) (r : Round), ∃ n : Matrix, expandKey roms q r = n ∧
      n.m00 = q.m00 ^^^ roms.sbox q.m11 ^^^ (roms.rcon r).n0 ∧
      n.m10 = q.m10 ^^^ roms.sbox q.m01 ^^^ (roms.rcon r).n1 ∧
      n.m01 = n.m00 ^^^ q.m01 ∧ n.m11 = n.m10 ^^^ q.m11) ∧
    (∀ s : State, s.flt = false → s.k0 = none →
      exec (.kexp 0#4) s = .next (faulted .invalidSource 0x900000#24 s)) ∧
    (∀ s : State, s.flt = false → s.k1 = none →
      exec (.kexp 1#4) s = .next (faulted .invalidSource 0x910000#24 s)) ∧
    decode 0x900000#24 = .ok (.kexp 0#4) ∧ decode 0x910000#24 = .ok (.kexp 1#4) ∧
    reservedExactly 0x9#4 fun w => 1 < (w.extractLsb' 16 4).toNat ∨ w.extractLsb' 0 16 ≠ 0#16

/-- R181, R177: the second step on the result of the first. R181's sentence on KEXP 0 followed by KEXP 1, which the spec marks
derived, is KschAgreesWithBothKexps. -/
def Obligations.KschRunsBothSteps : Prop :=
  (∀ (s : State) (q : Matrix), s.flt = false → s.k0 = some q →
    exec .ksch s =
      .next { s with
        k1 := some (expandKey theRoms q .first)
        k2 := some (expandKey theRoms (expandKey theRoms q .first) .second) }) ∧
    (∀ s : State, s.flt = false → s.k0 = none → exec .ksch s = .next (faulted .invalidSource 0xA00000#24 s)) ∧
    decode 0xA00000#24 = .ok .ksch ∧ reservedExactly 0xA#4 fun w => w.extractLsb' 0 20 ≠ 0#20

/-- R179, with R171 for the value: swap the nibbles, substitute, add the constant; for whatever ROMs the machine has. -/
def Obligations.GfnEvaluatesTheGFunction : Prop :=
  (∀ (r : Round) (n0 n1 : Nibble) (s : State), s.flt = false →
    exec (.gfn (roundField r) (n0 ++ n1)) s =
      .next { s with
        dout := some (0#8 ++ (theRoms.sbox n1 ^^^ (theRoms.rcon r).n0) ++
          (theRoms.sbox n0 ^^^ (theRoms.rcon r).n1)) }) ∧
    (∀ (r : Round) (w : BitVec 8), decode (0xE#4 ++ roundField r ++ 0#8 ++ w) = .ok (.gfn (roundField r) w)) ∧
    reservedExactly 0xE#4 fun w => 1 < (w.extractLsb' 16 4).toNat ∨ w.extractLsb' 8 8 ≠ 0#8

/-! ### The commands: engine and multiplier (44_cipher_engine.md, 40_field_multiplier.md) -/

/-- R192, with R190 for the value: the eight transforms in order; the result in S and in DOUT, the keys untouched. -/
def Obligations.EncEncryptsTheState : Prop :=
  (∀ (s : State) (p q0 q1 q2 : Matrix), s.flt = false → s.s = some p → s.k0 = some q0 → s.k1 = some q1 →
    s.k2 = some q2 →
    ∃ s0 s1 c : Matrix, s0 = addRoundKey p q0 ∧
      s1 = addRoundKey (mixColumns (shiftRows (substituteNibbles theRoms s0))) q1 ∧
      c = addRoundKey (shiftRows (substituteNibbles theRoms s1)) q2 ∧
      exec .enc s = .next { s with s := some c, dout := some (c.m00 ++ c.m10 ++ c.m01 ++ c.m11) }) ∧
    (∀ s : State, s.flt = false → s.s = none ∨ s.k0 = none ∨ s.k1 = none ∨ s.k2 = none →
      exec .enc s = .next (faulted .invalidSource 0xB00000#24 s)) ∧
    decode 0xB00000#24 = .ok .enc ∧ reservedExactly 0xB#4 fun w => w.extractLsb' 0 20 ≠ 0#20

/-- R109. The product itself is the subject of GfMulIsTheProductModuloTheFieldPolynomial. -/
def Obligations.GfmMultipliesTwoNibbles : Prop :=
  (∀ (a b : Nibble) (s : State), s.flt = false →
    exec (.gfm a b) s = .next { s with dout := some (0#12 ++ gfMul a b) }) ∧
    (∀ a b : Nibble, decode (0xC000#16 ++ a ++ b) = .ok (.gfm a b)) ∧
    reservedExactly 0xC#4 fun w => w.extractLsb' 8 12 ≠ 0#12

/-! ### The functions -/

/-- DERIVED (R100, read with R101, marked derived: bit `i` of a nibble is the coefficient of `x^i`). `gf_mul(a, b)` is the product of the two polynomials reduced modulo x⁴+x+1. -/
def Obligations.GfMulIsTheProductModuloTheFieldPolynomial : Prop :=
  ∀ a b : Nibble, poly (gfMul a b) = (poly a * poly b) %ₘ fieldPoly

/-- DERIVED (R108, marked derived). The multiplier as a network: bit `k` of the product of the two polynomials, and which of
those bits each result bit adds. -/
def Obligations.GfMulIsTheGateNetwork : Prop :=
  ∀ a b : Nibble,
    let d (k : Nat) : Bool := ((List.range 4).map fun i => i ≤ k && (a.getLsbD i && b.getLsbD (k - i))).foldl xor false
    (gfMul a b).getLsbD 0 = (d 0 ^^ d 4) ∧ (gfMul a b).getLsbD 1 = (d 1 ^^ d 4 ^^ d 5) ∧
      (gfMul a b).getLsbD 2 = (d 2 ^^ d 5 ^^ d 6) ∧ (gfMul a b).getLsbD 3 = (d 3 ^^ d 6)

/-- DERIVED (R106, marked derived; R105). The sixteen nibbles are a field: commutative, associative and distributive, one and
zero, no zero divisors, an inverse for each nonzero nibble and only one; and 2 generates the nonzero nibbles. -/
def Obligations.GfMulFieldLaws : Prop :=
  (∀ a b : Nibble, gfMul a b = gfMul b a) ∧ (∀ a : Nibble, gfMul a 0#4 = 0#4 ∧ gfMul a 1#4 = a) ∧
    (∀ a b c : Nibble, gfMul (gfMul a b) c = gfMul a (gfMul b c)) ∧
    (∀ a b c : Nibble, gfMul a (b ^^^ c) = gfMul a b ^^^ gfMul a c) ∧
    (∀ a b : Nibble, gfMul a b = 0#4 → a = 0#4 ∨ b = 0#4) ∧
    (∀ a : Nibble, a ≠ 0#4 → ∃! b, gfMul a b = 1#4) ∧
    ∀ a : Nibble, a ≠ 0#4 → ∃ n < 15, (gfMul 2#4)^[n] 1#4 = a

/-- R121, R122, R123: the four fields of an integer, the integer of four nibbles written with shifts, and the two round
trips. -/
def Obligations.PackingIsColumnMajorAndLossless : Prop :=
  (∀ x : Block, nib (intToState x) 0 0 = x.extractLsb' 12 4 ∧ nib (intToState x) 1 0 = x.extractLsb' 8 4 ∧
    nib (intToState x) 0 1 = x.extractLsb' 4 4 ∧ nib (intToState x) 1 1 = x.extractLsb' 0 4) ∧
    (∀ m : Matrix, stateToInt m =
      ((nib m 0 0).setWidth 16 <<< 12) ||| ((nib m 1 0).setWidth 16 <<< 8) ||| ((nib m 0 1).setWidth 16 <<< 4) |||
        (nib m 1 1).setWidth 16) ∧
    (∀ x : Block, stateToInt (intToState x) = x) ∧ ∀ m : Matrix, intToState (stateToInt m) = m

/-- DERIVED (R141, R151: the parts on integers are marked derived). Key addition is the exclusive-or of the integers and undoes
itself; shift-rows exchanges two hexadecimal digits and undoes itself. -/
def Obligations.KeyAdditionAndShiftRowsOnIntegers : Prop :=
  (∀ m q : Matrix, stateToInt (addRoundKey m q) = stateToInt m ^^^ stateToInt q ∧
    addRoundKey (addRoundKey m q) q = m ∧ addRoundKey m q = addRoundKey q m) ∧
    ∀ m : Matrix, shiftRows (shiftRows m) = m ∧
      stateToInt (shiftRows m) =
        (stateToInt m).extractLsb' 12 4 ++ (stateToInt m).extractLsb' 0 4 ++ (stateToInt m).extractLsb' 4 4 ++
          (stateToInt m).extractLsb' 8 4

/-- DERIVED (R155, R156, R160, marked derived). Mix-columns twice doubles every nibble, it is linear, and [[9,2],[2,9]] undoes
it from either side. -/
def Obligations.MixColumnsAlgebra : Prop :=
  (∀ (m : Matrix) (r c : Fin 2), nib (mixColumns (mixColumns m)) r c = gfMul 2#4 (nib m r c)) ∧
    (∀ m q : Matrix, mixColumns (addRoundKey m q) = addRoundKey (mixColumns m) (mixColumns q)) ∧
    ∀ m : Matrix, unmixColumns (mixColumns m) = m ∧ mixColumns (unmixColumns m) = m

/-- DERIVED (R174, R176, marked derived). The expansion step on bytes: `W2 = W0 ^ g(W1)`, `W3 = W2 ^ W1`. -/
def Obligations.ExpandKeyOnBytes : Prop :=
  ∀ (roms : Roms) (q : Matrix) (r : Round) (w0 w1 c : BitVec 8), w0 = (stateToInt q).extractLsb' 8 8 →
    w1 = (stateToInt q).extractLsb' 0 8 → c = (roms.rcon r).n0 ++ (roms.rcon r).n1 →
    ∃ w2 : BitVec 8, w2 = w0 ^^^ ((roms.sbox (w1.extractLsb' 0 4) ++ roms.sbox (w1.extractLsb' 4 4)) ^^^ c) ∧
      stateToInt (expandKey roms q r) = w2 ++ (w2 ^^^ w1)

/-- DERIVED (R197, marked derived). For a fixed key the cipher is one to one exactly when the S-box is; for every ROM. -/
def Obligations.EncryptIsBijectiveExactlyWhenTheSboxIs : Prop :=
  ∀ (roms : Roms) (key : Block),
    Function.Bijective (fun p => encrypt roms p key) ↔ Function.Bijective roms.sbox

/-- DERIVED (R36, R37, R178, R196: the textbook tables are general knowledge, 93 G1 to G3; entry 2). The spec's worked values
under the textbook tables, whatever the machine's own are. -/
def Obligations.TextbookVectors : Prop :=
  stateToInt (expandKey textbookRoms (intToState 0x4AF5#16) .first) = 0xDD28#16 ∧
    stateToInt (expandKey textbookRoms (intToState 0xDD28#16) .second) = 0x87AF#16 ∧
    encrypt textbookRoms 0xD728#16 0x4AF5#16 = 0x24EC#16 ∧ encrypt textbookRoms 0x24EC#16 0x4AF5#16 = 0x6ADD#16 ∧
    encrypt textbookRoms 0x4F4B#16 0x0000#16 = 0x9AA7#16 ∧ encrypt textbookRoms 0xFFFF#16 0xFFFF#16 = 0x5343#16 ∧
    encrypt textbookRoms 0x6F6B#16 0xA73B#16 = 0x0738#16 ∧ encrypt textbookRoms 0x1234#16 0x5678#16 = 0x0AEB#16

/-! ### Sequences of commands -/

/-- DERIVED (R194, marked derived). From any state in which ENC does not fault, ENC and the nine commands of ENCSTEPS leave the
same state. -/
def Obligations.EncAgreesWithTheNineSteps : Prop :=
  ∀ s : State, s.flt = false → s.vs = true → s.vk0 = true → s.vk1 = true → s.vk2 = true →
    ∃ t, runEvents (sends [.enc]) s = .next t ∧ runEvents (sends encSteps) s = .next t ∧ t.flt = false

/-- DERIVED (R194, marked derived; R191). The trace hook: an RDS after any of the eight transforms shows that stage's state in
DOUT, and the reads do not disturb the sequence. -/
def Obligations.TraceHookShowsEveryStage : Prop :=
  ∀ (s : State) (p q0 q1 q2 : Matrix), s.flt = false → s.s = some p → s.k0 = some q0 → s.k1 = some q1 →
    s.k2 = some q2 →
    (∀ n < 8, ∃ t m, runEvents (sends (encSteps.take (n + 1) ++ [.rds])) s = .next t ∧
      (encryptStages theRoms p q0 q1 q2)[n]? = some m ∧ t.dout = some (stateToInt m)) ∧
      (encryptStages theRoms p q0 q1 q2).getLast? = some (encryptBlock theRoms p q0 q1 q2) ∧
      runEvents (sends encTraced) s = runEvents (sends encSteps) s

/-- DERIVED (R181's sentence on KEXP 0 followed by KEXP 1, marked derived from R180). From every state in which KSCH does not
fault, KSCH and the two single steps leave the same state. -/
def Obligations.KschAgreesWithBothKexps : Prop :=
  ∀ (s : State) (q : Matrix), s.flt = false → s.k0 = some q →
    ∃ t u, exec .ksch s = .next t ∧ exec (.kexp 0#4) s = .next u ∧ exec (.kexp 1#4) u = .next t ∧ t.flt = false

/-- DERIVED (R265, marked derived; R195). The start-up order, with the block before or after the key, gives the ciphertext: a
function of the block, the key and the ROMs alone. -/
def Obligations.StartUpSequenceEncrypts : Prop :=
  ∀ (s : State) (p k : Block),
    (∃ t, runEvents (.reset :: sends [.ldk k, .ksch, .lds p, .enc]) s = .next t ∧
      t.dout = some (encrypt theRoms p k) ∧ t.status = 0x001F#16) ∧
      ∃ t, runEvents (.reset :: sends [.lds p, .ldk k, .ksch, .enc]) s = .next t ∧
        t.dout = some (encrypt theRoms p k) ∧ t.status = 0x001F#16

/-- DERIVED (R266, marked derived; R25). The valid bits go on agreeing with the commands sent: whatever the state and the history it
agrees with, after one more command word that did not fault they agree with the history with that command at its end. -/
def Obligations.StepKeepsTheHistoryCoherent : Prop :=
  ∀ (h : List Instr) (i : Instr) (s t : State) (rest : List HostEvent), HistoryCoherent h s →
    s.input = .command (encode i) :: rest → i.wellFormed = true → step s = .next t → t.flt = false →
    HistoryCoherent (h ++ [i]) t

/-- DERIVED (R266, marked derived; entry 15). After reset and any commands that did not fault, the next command faults exactly
when the table's need is not met. -/
def Obligations.CommandFaultsExactlyWithoutItsNeeds : Prop :=
  ∀ (h : List Instr) (i : Instr) (s t : State), (∀ j ∈ h, j.wellFormed = true) → i.wellFormed = true →
    runEvents (sends h) State.reset = .next s → s.flt = false → exec i s = .next t →
    (t.flt = true ↔ needsMet h i = false) ∧ (t.flt = true → t.cause = .invalidSource ∧ t.fcmd = encode i)

/-- DERIVED (R243 and R266, marked derived; entry 15). A host that always sends what a command needs before it never causes a
fault. -/
def Obligations.DisciplinedHostNeverCausesAFault : Prop :=
  ∀ is : List Instr, disciplined [] is = true →
    ∃ t, runEvents (sends is) State.reset = .next t ∧ goodEnd t = true

/-! ### The port -/

/-- DERIVED (R43, R261, R275; the edge layer is entry 8). Whatever the latencies and whatever the pins do, the CORE behind its
port is the machine run on the sequence of accepted words with the resets between them. -/
def Obligations.PortRefinesTheCommandSequence : Prop :=
  ∀ (lat : BitVec 4 → Nat) (xs : List Pins),
    runEvents (eventsOf lat PortState.reset xs) State.reset = .next (edges lat PortState.reset xs).core

/-- DERIVED (R43, R275, R281, R282; entry 8). An accepted command with latency `n + 1` shows nothing and keeps `cmd_ready` at 0
after each of `n` further edges without reset, and completes at the next: the outputs change once. -/
def Obligations.AcceptedCommandCompletesAfterItsLatency : Prop :=
  ∀ (lat : BitVec 4 → Nat) (p : PortState) (x : Pins) (n : Nat) (ys : List Pins) (y : Pins),
    accepts p x = true → p.core.flt = false → lat (opField x.cmd) = n + 1 → ys.length = n →
    (∀ z ∈ ys, z.rst = false) → y.rst = false →
    (∀ m ≤ n, (edges lat (edge lat p x) (ys.take m)).core = p.core ∧
      (edges lat (edge lat p x) (ys.take m)).cmdReady = false) ∧
      edges lat (edge lat p x) (ys ++ [y]) = { core := commit x.cmd p.core, busy := none }

/-! ### The host's software (45_host_ecb_layer.md, 30_encoding.md section 6) -/

/-- DERIVED (R206 and R207, with R208, D23 and the model's choice of entry 16 for what a character's code is: R206 speaks of ASCII).
Two characters with codes up to 255 make a block, the first the high byte, which is column 0 of the state (R121); a code
above 255 is refused, and so is any other number of characters, whatever their codes (length before code: entry 11). -/
def Obligations.TextBlockIsTwoCharacters : Prop :=
  (∀ c0 c1 : Char, c0.toNat ≤ 255 → c1.toNat ≤ 255 →
    ∃ x : Block, textBlockToInt [c0, c1] = .ok x ∧
      x = (BitVec.ofNat 16 c0.toNat <<< 8) ||| BitVec.ofNat 16 c1.toNat ∧
      nib (intToState x) 0 0 ++ nib (intToState x) 1 0 = BitVec.ofNat 8 c0.toNat ∧
      nib (intToState x) 0 1 ++ nib (intToState x) 1 1 = BitVec.ofNat 8 c1.toNat) ∧
    (∀ c0 c1 : Char, 255 < c0.toNat ∨ 255 < c1.toNat → textBlockToInt [c0, c1] = .error .characterCode) ∧
    ∀ text : List Char, text.length ≠ 2 → textBlockToInt text = .error .blockLength

/-- DERIVED (R221, for a key given as an integer; that the key is looked at before the text is entry 11). A key outside
[0, 65535] is an error at the boundary, whatever the text, and nothing reaches the CORE. -/
def Obligations.KeyOutOfRangeIsRefused : Prop :=
  ∀ (roms : Roms) (text : List Char) (key : Int) (s : State), key < 0 ∨ 65535 < key →
    encryptEcb roms text key = .error .keyRange ∧ encryptSingle roms text key = .error .keyRange ∧
      runEcb text key s = .error .keyRange

/-- DERIVED (R215; that a text with accepted codes is encrypted at all is R208, D23). The length law. -/
def Obligations.EcbLengthLaw : Prop :=
  ∀ (roms : Roms) (text : List Char) (key : Int), codesAccepted text → 0 ≤ key → key ≤ 65535 →
    ∃ out, encryptEcb roms text key = .ok out ∧ out.length = (text.length + 1) / 2 * 2

/-- R211: a text of odd length and the same text with one NUL after it cannot be told apart. -/
def Obligations.PadIsIndistinguishableFromNul : Prop :=
  ∀ (roms : Roms) (text : List Char) (key : Int), text.length % 2 = 1 →
    encryptEcb roms text key = encryptEcb roms (text ++ [nulChar]) key

/-- DERIVED (R212, R213; that the errors agree rests on the model's choice of entry 11, the key before the text). Blocks are independent and their output is in block order: after an even number of characters the text can
be cut in two. -/
def Obligations.EcbBlocksAreIndependent : Prop :=
  ∀ (roms : Roms) (text text' : List Char) (key : Int), text.length % 2 = 0 →
    encryptEcb roms (text ++ text') key = bothOutputs (encryptEcb roms text key) (encryptEcb roms text' key)

/-- DERIVED (R217, marked derived; R214, R222; that the errors agree rests on the model's choice of entry 11, made alike in both
procedures). The command sequence at the CORE's port realises `encrypt_ecb`, for every text
and key, with the ROMs the CORE has. -/
def Obligations.CommandSequenceRealisesEcb : Prop :=
  ∀ (text : List Char) (key : Int), runEcb text key State.reset = encryptEcb theRoms text key

/-- DERIVED (R220, general knowledge 93 G4; entry 13). Four characters for every three bytes begun. -/
def Obligations.Base64Length : Prop :=
  ∀ bytes : List Byte, (base64 bytes).length = 4 * ((bytes.length + 2) / 3)

/-- DERIVED (R81, R82; the text form is entry 14). The assembler never emits an illegal word. -/
def Obligations.AssemblerEmitsOnlyLegalWords : Prop :=
  ∀ (lines : List (List Char)) (ws : List Command), assembleProgram lines = .ok ws →
    ∀ w ∈ ws, ∃ i, decode w = .ok i
end

