-- ==== Sys2Proof/Laws/State.lean ====
section
/-! SUPPORT. One lemma per field per named update of State, so that no proof unfolds a record update; and what the
key accessor, the valid bits and STATUS become. -/

namespace Sys2Proof.Machine

variable (s : State)

/-! ### writeS -/

@[simp] theorem State.writeS_s (m : Matrix) : (s.writeS m).s = some m := rfl
@[simp] theorem State.writeS_k0 (m : Matrix) : (s.writeS m).k0 = s.k0 := rfl
@[simp] theorem State.writeS_k1 (m : Matrix) : (s.writeS m).k1 = s.k1 := rfl
@[simp] theorem State.writeS_k2 (m : Matrix) : (s.writeS m).k2 = s.k2 := rfl
@[simp] theorem State.writeS_dout (m : Matrix) : (s.writeS m).dout = s.dout := rfl
@[simp] theorem State.writeS_flt (m : Matrix) : (s.writeS m).flt = s.flt := rfl
@[simp] theorem State.writeS_cause (m : Matrix) : (s.writeS m).cause = s.cause := rfl
@[simp] theorem State.writeS_fcmd (m : Matrix) : (s.writeS m).fcmd = s.fcmd := rfl
@[simp] theorem State.writeS_input (m : Matrix) : (s.writeS m).input = s.input := rfl

/-! ### clearRoundKeys -/

@[simp] theorem State.clearRoundKeys_s : (s.clearRoundKeys).s = s.s := rfl
@[simp] theorem State.clearRoundKeys_k0 : (s.clearRoundKeys).k0 = s.k0 := rfl
@[simp] theorem State.clearRoundKeys_k1 : (s.clearRoundKeys).k1 = none := rfl
@[simp] theorem State.clearRoundKeys_k2 : (s.clearRoundKeys).k2 = none := rfl
@[simp] theorem State.clearRoundKeys_dout : (s.clearRoundKeys).dout = s.dout := rfl
@[simp] theorem State.clearRoundKeys_flt : (s.clearRoundKeys).flt = s.flt := rfl
@[simp] theorem State.clearRoundKeys_cause : (s.clearRoundKeys).cause = s.cause := rfl
@[simp] theorem State.clearRoundKeys_fcmd : (s.clearRoundKeys).fcmd = s.fcmd := rfl
@[simp] theorem State.clearRoundKeys_input : (s.clearRoundKeys).input = s.input := rfl

/-! ### writeDout -/

@[simp] theorem State.writeDout_s (v : Block) : (s.writeDout v).s = s.s := rfl
@[simp] theorem State.writeDout_k0 (v : Block) : (s.writeDout v).k0 = s.k0 := rfl
@[simp] theorem State.writeDout_k1 (v : Block) : (s.writeDout v).k1 = s.k1 := rfl
@[simp] theorem State.writeDout_k2 (v : Block) : (s.writeDout v).k2 = s.k2 := rfl
@[simp] theorem State.writeDout_dout (v : Block) : (s.writeDout v).dout = some v := rfl
@[simp] theorem State.writeDout_flt (v : Block) : (s.writeDout v).flt = s.flt := rfl
@[simp] theorem State.writeDout_cause (v : Block) : (s.writeDout v).cause = s.cause := rfl
@[simp] theorem State.writeDout_fcmd (v : Block) : (s.writeDout v).fcmd = s.fcmd := rfl
@[simp] theorem State.writeDout_input (v : Block) : (s.writeDout v).input = s.input := rfl

/-! ### takeFault -/

@[simp] theorem State.takeFault_s (c : Cause) (w : Command) : (s.takeFault c w).s = s.s := rfl
@[simp] theorem State.takeFault_k0 (c : Cause) (w : Command) : (s.takeFault c w).k0 = s.k0 := rfl
@[simp] theorem State.takeFault_k1 (c : Cause) (w : Command) : (s.takeFault c w).k1 = s.k1 := rfl
@[simp] theorem State.takeFault_k2 (c : Cause) (w : Command) : (s.takeFault c w).k2 = s.k2 := rfl
@[simp] theorem State.takeFault_dout (c : Cause) (w : Command) : (s.takeFault c w).dout = s.dout := rfl
@[simp] theorem State.takeFault_flt (c : Cause) (w : Command) : (s.takeFault c w).flt = true := rfl
@[simp] theorem State.takeFault_cause (c : Cause) (w : Command) : (s.takeFault c w).cause = c := rfl
@[simp] theorem State.takeFault_fcmd (c : Cause) (w : Command) : (s.takeFault c w).fcmd = w := rfl
@[simp] theorem State.takeFault_input (c : Cause) (w : Command) : (s.takeFault c w).input = s.input := rfl

/-! ### applyReset -/

@[simp] theorem State.applyReset_s : (s.applyReset).s = none := rfl
@[simp] theorem State.applyReset_k0 : (s.applyReset).k0 = none := rfl
@[simp] theorem State.applyReset_k1 : (s.applyReset).k1 = none := rfl
@[simp] theorem State.applyReset_k2 : (s.applyReset).k2 = none := rfl
@[simp] theorem State.applyReset_dout : (s.applyReset).dout = none := rfl
@[simp] theorem State.applyReset_flt : (s.applyReset).flt = false := rfl
@[simp] theorem State.applyReset_cause : (s.applyReset).cause = .noFault := rfl
@[simp] theorem State.applyReset_fcmd : (s.applyReset).fcmd = 0#24 := rfl
@[simp] theorem State.applyReset_input : (s.applyReset).input = s.input := rfl

/-! ### present -/

@[simp] theorem State.present_s (w : Command) : (s.present w).s = s.s := rfl
@[simp] theorem State.present_k0 (w : Command) : (s.present w).k0 = s.k0 := rfl
@[simp] theorem State.present_k1 (w : Command) : (s.present w).k1 = s.k1 := rfl
@[simp] theorem State.present_k2 (w : Command) : (s.present w).k2 = s.k2 := rfl
@[simp] theorem State.present_dout (w : Command) : (s.present w).dout = s.dout := rfl
@[simp] theorem State.present_flt (w : Command) : (s.present w).flt = s.flt := rfl
@[simp] theorem State.present_cause (w : Command) : (s.present w).cause = s.cause := rfl
@[simp] theorem State.present_fcmd (w : Command) : (s.present w).fcmd = s.fcmd := rfl
@[simp] theorem State.present_input (w : Command) : (s.present w).input = .command w :: s.input := rfl

/-! ### writeKey .k0 -/

@[simp] theorem State.writeKey_k0_s (m : Matrix) : (s.writeKey .k0 m).s = s.s := rfl
@[simp] theorem State.writeKey_k0_k0 (m : Matrix) : (s.writeKey .k0 m).k0 = some m := rfl
@[simp] theorem State.writeKey_k0_k1 (m : Matrix) : (s.writeKey .k0 m).k1 = s.k1 := rfl
@[simp] theorem State.writeKey_k0_k2 (m : Matrix) : (s.writeKey .k0 m).k2 = s.k2 := rfl
@[simp] theorem State.writeKey_k0_dout (m : Matrix) : (s.writeKey .k0 m).dout = s.dout := rfl
@[simp] theorem State.writeKey_k0_flt (m : Matrix) : (s.writeKey .k0 m).flt = s.flt := rfl
@[simp] theorem State.writeKey_k0_cause (m : Matrix) : (s.writeKey .k0 m).cause = s.cause := rfl
@[simp] theorem State.writeKey_k0_fcmd (m : Matrix) : (s.writeKey .k0 m).fcmd = s.fcmd := rfl
@[simp] theorem State.writeKey_k0_input (m : Matrix) : (s.writeKey .k0 m).input = s.input := rfl

/-! ### writeKey .k1 -/

@[simp] theorem State.writeKey_k1_s (m : Matrix) : (s.writeKey .k1 m).s = s.s := rfl
@[simp] theorem State.writeKey_k1_k0 (m : Matrix) : (s.writeKey .k1 m).k0 = s.k0 := rfl
@[simp] theorem State.writeKey_k1_k1 (m : Matrix) : (s.writeKey .k1 m).k1 = some m := rfl
@[simp] theorem State.writeKey_k1_k2 (m : Matrix) : (s.writeKey .k1 m).k2 = s.k2 := rfl
@[simp] theorem State.writeKey_k1_dout (m : Matrix) : (s.writeKey .k1 m).dout = s.dout := rfl
@[simp] theorem State.writeKey_k1_flt (m : Matrix) : (s.writeKey .k1 m).flt = s.flt := rfl
@[simp] theorem State.writeKey_k1_cause (m : Matrix) : (s.writeKey .k1 m).cause = s.cause := rfl
@[simp] theorem State.writeKey_k1_fcmd (m : Matrix) : (s.writeKey .k1 m).fcmd = s.fcmd := rfl
@[simp] theorem State.writeKey_k1_input (m : Matrix) : (s.writeKey .k1 m).input = s.input := rfl

/-! ### writeKey .k2 -/

@[simp] theorem State.writeKey_k2_s (m : Matrix) : (s.writeKey .k2 m).s = s.s := rfl
@[simp] theorem State.writeKey_k2_k0 (m : Matrix) : (s.writeKey .k2 m).k0 = s.k0 := rfl
@[simp] theorem State.writeKey_k2_k1 (m : Matrix) : (s.writeKey .k2 m).k1 = s.k1 := rfl
@[simp] theorem State.writeKey_k2_k2 (m : Matrix) : (s.writeKey .k2 m).k2 = some m := rfl
@[simp] theorem State.writeKey_k2_dout (m : Matrix) : (s.writeKey .k2 m).dout = s.dout := rfl
@[simp] theorem State.writeKey_k2_flt (m : Matrix) : (s.writeKey .k2 m).flt = s.flt := rfl
@[simp] theorem State.writeKey_k2_cause (m : Matrix) : (s.writeKey .k2 m).cause = s.cause := rfl
@[simp] theorem State.writeKey_k2_fcmd (m : Matrix) : (s.writeKey .k2 m).fcmd = s.fcmd := rfl
@[simp] theorem State.writeKey_k2_input (m : Matrix) : (s.writeKey .k2 m).input = s.input := rfl

/-! ### writeKey at any index -/

@[simp] theorem State.writeKey_s (k : KeyIndex) (m : Matrix) : (s.writeKey k m).s = s.s := by cases k <;> rfl
@[simp] theorem State.writeKey_dout (k : KeyIndex) (m : Matrix) : (s.writeKey k m).dout = s.dout := by cases k <;> rfl
@[simp] theorem State.writeKey_flt (k : KeyIndex) (m : Matrix) : (s.writeKey k m).flt = s.flt := by cases k <;> rfl
@[simp] theorem State.writeKey_cause (k : KeyIndex) (m : Matrix) : (s.writeKey k m).cause = s.cause := by cases k <;> rfl
@[simp] theorem State.writeKey_fcmd (k : KeyIndex) (m : Matrix) : (s.writeKey k m).fcmd = s.fcmd := by cases k <;> rfl
@[simp] theorem State.writeKey_input (k : KeyIndex) (m : Matrix) : (s.writeKey k m).input = s.input := by cases k <;> rfl

/-! ### The key accessor -/

@[simp] theorem State.key_k0 : s.key .k0 = s.k0 := rfl
@[simp] theorem State.key_k1 : s.key .k1 = s.k1 := rfl
@[simp] theorem State.key_k2 : s.key .k2 = s.k2 := rfl

theorem State.key_writeKey (k j : KeyIndex) (m : Matrix) :
    (s.writeKey k m).key j = if j = k then some m else s.key j := by
  cases k <;> cases j <;> rfl

@[simp] theorem State.writeS_key (m : Matrix) (k : KeyIndex) : (s.writeS m).key k = s.key k := by cases k <;> rfl
@[simp] theorem State.writeDout_key (v : Block) (k : KeyIndex) : (s.writeDout v).key k = s.key k := by cases k <;> rfl
@[simp] theorem State.takeFault_key (c : Cause) (w : Command) (k : KeyIndex) : (s.takeFault c w).key k = s.key k := by cases k <;> rfl
@[simp] theorem State.present_key (w : Command) (k : KeyIndex) : (s.present w).key k = s.key k := by cases k <;> rfl

/-! ### Valid bits -/

@[simp] theorem State.writeS_vs (m : Matrix) : (s.writeS m).vs = true := rfl
@[simp] theorem State.writeS_vk0 (m : Matrix) : (s.writeS m).vk0 = s.vk0 := rfl
@[simp] theorem State.writeS_vk1 (m : Matrix) : (s.writeS m).vk1 = s.vk1 := rfl
@[simp] theorem State.writeS_vk2 (m : Matrix) : (s.writeS m).vk2 = s.vk2 := rfl
@[simp] theorem State.writeS_vd (m : Matrix) : (s.writeS m).vd = s.vd := rfl
@[simp] theorem State.clearRoundKeys_vs : (s.clearRoundKeys).vs = s.vs := rfl
@[simp] theorem State.clearRoundKeys_vk0 : (s.clearRoundKeys).vk0 = s.vk0 := rfl
@[simp] theorem State.clearRoundKeys_vk1 : (s.clearRoundKeys).vk1 = false := rfl
@[simp] theorem State.clearRoundKeys_vk2 : (s.clearRoundKeys).vk2 = false := rfl
@[simp] theorem State.clearRoundKeys_vd : (s.clearRoundKeys).vd = s.vd := rfl
@[simp] theorem State.writeDout_vs (v : Block) : (s.writeDout v).vs = s.vs := rfl
@[simp] theorem State.writeDout_vk0 (v : Block) : (s.writeDout v).vk0 = s.vk0 := rfl
@[simp] theorem State.writeDout_vk1 (v : Block) : (s.writeDout v).vk1 = s.vk1 := rfl
@[simp] theorem State.writeDout_vk2 (v : Block) : (s.writeDout v).vk2 = s.vk2 := rfl
@[simp] theorem State.writeDout_vd (v : Block) : (s.writeDout v).vd = true := rfl
@[simp] theorem State.takeFault_vs (c : Cause) (w : Command) : (s.takeFault c w).vs = s.vs := rfl
@[simp] theorem State.takeFault_vk0 (c : Cause) (w : Command) : (s.takeFault c w).vk0 = s.vk0 := rfl
@[simp] theorem State.takeFault_vk1 (c : Cause) (w : Command) : (s.takeFault c w).vk1 = s.vk1 := rfl
@[simp] theorem State.takeFault_vk2 (c : Cause) (w : Command) : (s.takeFault c w).vk2 = s.vk2 := rfl
@[simp] theorem State.takeFault_vd (c : Cause) (w : Command) : (s.takeFault c w).vd = s.vd := rfl
@[simp] theorem State.applyReset_vs : (s.applyReset).vs = false := rfl
@[simp] theorem State.applyReset_vk0 : (s.applyReset).vk0 = false := rfl
@[simp] theorem State.applyReset_vk1 : (s.applyReset).vk1 = false := rfl
@[simp] theorem State.applyReset_vk2 : (s.applyReset).vk2 = false := rfl
@[simp] theorem State.applyReset_vd : (s.applyReset).vd = false := rfl
@[simp] theorem State.present_vs (w : Command) : (s.present w).vs = s.vs := rfl
@[simp] theorem State.present_vk0 (w : Command) : (s.present w).vk0 = s.vk0 := rfl
@[simp] theorem State.present_vk1 (w : Command) : (s.present w).vk1 = s.vk1 := rfl
@[simp] theorem State.present_vk2 (w : Command) : (s.present w).vk2 = s.vk2 := rfl
@[simp] theorem State.present_vd (w : Command) : (s.present w).vd = s.vd := rfl

end Sys2Proof.Machine
end

