-- ==== Sys2Proof/Laws/Ops.lean ====
section
/-! SUPPORT. What each shared operation can do, said once: the check for the faulted state, the checks of a command's
sources and index, taking an event, accepting a word. Proofs about a command cite these instead of unfolding them. -/

namespace Sys2Proof.Machine

/-! ### unlessFaulted -/

@[simp] theorem unlessFaulted_of_faulted {s : State} (h : s.flt = true) (body : Result) :
    unlessFaulted s body = .next s := by simp [unlessFaulted, h]

@[simp] theorem unlessFaulted_of_running {s : State} (h : s.flt = false) (body : Result) :
    unlessFaulted s body = body := by simp [unlessFaulted, h]

/-- Either the CORE was faulted and nothing happened, or the body answered. -/
theorem unlessFaulted_eq_next {s t : State} {body : Result} :
    unlessFaulted s body = .next t ↔ (s.flt = true ∧ t = s) ∨ (s.flt = false ∧ body = .next t) := by
  cases h : s.flt <;> simp [unlessFaulted, h, eq_comm]

/-! ### requireValid and requireIndex -/

@[simp] theorem requireValid_some {α : Type} (v : α) (i : Instr) (s : State) (body : α → Result) :
    requireValid (some v) i s body = body v := rfl

@[simp] theorem requireValid_none {α : Type} (i : Instr) (s : State) (body : α → Result) :
    requireValid none i s body = .next (s.takeFault .invalidSource (encode i)) := rfl

/-- Either the register was empty and the fault was taken, or the body answered for its contents. -/
theorem requireValid_eq_next {α : Type} {r : Option α} {i : Instr} {s t : State} {body : α → Result} :
    requireValid r i s body = .next t ↔
      (r = none ∧ t = s.takeFault .invalidSource (encode i)) ∨ ∃ v, r = some v ∧ body v = .next t := by
  cases r <;> simp [eq_comm]

@[simp] theorem requireIndex_some {α : Type} (v : α) (i : Instr) (s : State) (body : α → Result) :
    requireIndex (some v) i s body = body v := rfl

@[simp] theorem requireIndex_none {α : Type} (i : Instr) (s : State) (body : α → Result) :
    requireIndex none i s body = .next (s.takeFault .reservedField (encode i)) := rfl

/-- Either the index was out of range and the fault was taken, or the body answered for it. -/
theorem requireIndex_eq_next {α : Type} {x : Option α} {i : Instr} {s t : State} {body : α → Result} :
    requireIndex x i s body = .next t ↔
      (x = none ∧ t = s.takeFault .reservedField (encode i)) ∨ ∃ v, x = some v ∧ body v = .next t := by
  cases x <;> simp [eq_comm]

/-! ### Index fields -/

@[simp] theorem keyIndexOf_keyField (k : KeyIndex) : keyIndexOf (keyField k) = some k := by cases k <;> rfl

@[simp] theorem roundOf_roundField (r : Round) : roundOf (roundField r) = some r := by cases r <;> rfl

theorem keyIndexOf_eq_none_iff : ∀ k : BitVec 4, keyIndexOf k = none ↔ 2 < k.toNat := by decide

theorem roundOf_eq_none_iff : ∀ r : BitVec 4, roundOf r = none ↔ 1 < r.toNat := by decide

theorem keyIndexOf_eq_some_iff : ∀ (k : BitVec 4) (i : KeyIndex), keyIndexOf k = some i ↔ k = keyField i := by
  intro k i; cases i <;> revert k <;> decide

theorem roundOf_eq_some_iff : ∀ (r : BitVec 4) (i : Round), roundOf r = some i ↔ r = roundField i := by
  intro r i; cases i <;> revert r <;> decide

/-! ### Taking an event, accepting a word, one step -/

@[simp] theorem takeEvent_idle {s : State} (h : s.input = []) : takeEvent s = .idle := by
  simp [takeEvent, h]

@[simp] theorem takeEvent_present (s : State) (w : Command) : takeEvent (s.present w) = .command w s := rfl

/-- The next event decides what `takeEvent` answers, and the state with it is the old one without that event. -/
theorem takeEvent_cases (s : State) :
    (s.input = [] ∧ takeEvent s = .idle) ∨
      (∃ rest, s.input = .reset :: rest ∧ takeEvent s = .reset { s with input := rest }) ∨
      ∃ w rest, s.input = .command w :: rest ∧ takeEvent s = .command w { s with input := rest } := by
  rcases h : s.input with _ | ⟨_ | _, rest⟩ <;> simp [takeEvent, h]

theorem accept_of_decode_ok {w : Command} {i : Instr} (h : decode w = .ok i) (s : State) :
    accept w s = exec i s := by simp [accept, h]

theorem accept_of_decode_error {w : Command} {d : DecodeFault} (h : decode w = .error d) (s : State) :
    accept w s = acceptIllegal d w s := by simp [accept, h]

/-- An illegal word: ignored while faulted, else the fault of its decoding. -/
theorem acceptIllegal_eq_next {d : DecodeFault} {w : Command} {s t : State} :
    acceptIllegal d w s = .next t ↔
      (s.flt = true ∧ t = s) ∨ (s.flt = false ∧ t = s.takeFault (causeOfDecode d) w) := by
  cases h : s.flt <;> simp [acceptIllegal, h, eq_comm]

@[simp] theorem step_present (s : State) (w : Command) : step (s.present w) = accept w s := rfl

theorem step_of_command {s : State} {w : Command} {rest : List HostEvent} (h : s.input = .command w :: rest) :
    step s = accept w { s with input := rest } := by simp [step, takeEvent, h]

theorem step_of_reset {s : State} {rest : List HostEvent} (h : s.input = .reset :: rest) :
    step s = .next { State.reset with input := rest } := by simp [step, takeEvent, h, State.applyReset]

end Sys2Proof.Machine
end

