-- ==== Sys2Proof/Laws/Commands.lean ====
section
/-! SUPPORT. One inversion lemma per command: everything the command can answer. In each, the first case is the faulted CORE,
which ignores the command; then come the faults in the order they are looked for; the last case is the command's effect. -/

namespace Sys2Proof.Machine

variable {s t : State}

theorem next_inj : (Host.Outcome.next s : Result) = .next t ↔ t = s := by
  constructor
  · rintro ⟨⟩
    rfl
  · rintro rfl
    rfl

theorem execNop_next : execNop s = .next t ↔ t = s := by
  simp only [execNop, unlessFaulted_eq_next, next_inj]
  cases s.flt <;> simp

theorem execLds_next (imm16 : Block) :
    execLds imm16 s = .next t ↔
      (s.flt = true ∧ t = s) ∨
        (s.flt = false ∧ t = s.writeS (intToState imm16)) := by
  simp only [execLds, unlessFaulted_eq_next, next_inj]

theorem execLdk_next (imm16 : Block) :
    execLdk imm16 s = .next t ↔
      (s.flt = true ∧ t = s) ∨
        (s.flt = false ∧ t = (s.writeKey .k0 (intToState imm16)).clearRoundKeys) := by
  simp only [execLdk, unlessFaulted_eq_next, next_inj]

theorem execRds_next :
    execRds s = .next t ↔
      (s.flt = true ∧ t = s) ∨
        (s.flt = false ∧ ((s.s = none ∧ t = s.takeFault .invalidSource (encode .rds)) ∨
          ∃ m, s.s = some m ∧ t = s.writeDout (stateToInt m))) := by
  simp only [execRds, unlessFaulted_eq_next, requireValid_eq_next, next_inj]

theorem execRdk_next (k : BitVec 4) :
    execRdk k s = .next t ↔
      (s.flt = true ∧ t = s) ∨
        (s.flt = false ∧ ((keyIndexOf k = none ∧ t = s.takeFault .reservedField (encode (.rdk k))) ∨
          ∃ ki, keyIndexOf k = some ki ∧ ((s.key ki = none ∧ t = s.takeFault .invalidSource (encode (.rdk k))) ∨
            ∃ q, s.key ki = some q ∧ t = s.writeDout (stateToInt q)))) := by
  simp only [execRdk, unlessFaulted_eq_next, requireIndex_eq_next, requireValid_eq_next, next_inj]

theorem execArk_next (k : BitVec 4) :
    execArk k s = .next t ↔
      (s.flt = true ∧ t = s) ∨
        (s.flt = false ∧ ((keyIndexOf k = none ∧ t = s.takeFault .reservedField (encode (.ark k))) ∨
          ∃ ki, keyIndexOf k = some ki ∧ ((s.s = none ∧ t = s.takeFault .invalidSource (encode (.ark k))) ∨
            ∃ m, s.s = some m ∧ ((s.key ki = none ∧ t = s.takeFault .invalidSource (encode (.ark k))) ∨
              ∃ q, s.key ki = some q ∧ t = s.writeS (addRoundKey m q))))) := by
  simp only [execArk, unlessFaulted_eq_next, requireIndex_eq_next, requireValid_eq_next, next_inj]

theorem execSub_next :
    execSub s = .next t ↔
      (s.flt = true ∧ t = s) ∨
        (s.flt = false ∧ ((s.s = none ∧ t = s.takeFault .invalidSource (encode .sub)) ∨
          ∃ m, s.s = some m ∧ t = s.writeS (substituteNibbles theRoms m))) := by
  simp only [execSub, subCommand, unlessFaulted_eq_next, requireValid_eq_next, next_inj]

theorem execShr_next :
    execShr s = .next t ↔
      (s.flt = true ∧ t = s) ∨
        (s.flt = false ∧ ((s.s = none ∧ t = s.takeFault .invalidSource (encode .shr)) ∨
          ∃ m, s.s = some m ∧ t = s.writeS (shiftRows m))) := by
  simp only [execShr, unlessFaulted_eq_next, requireValid_eq_next, next_inj]

theorem execMix_next :
    execMix s = .next t ↔
      (s.flt = true ∧ t = s) ∨
        (s.flt = false ∧ ((s.s = none ∧ t = s.takeFault .invalidSource (encode .mix)) ∨
          ∃ m, s.s = some m ∧ t = s.writeS (mixColumns m))) := by
  simp only [execMix, unlessFaulted_eq_next, requireValid_eq_next, next_inj]

theorem execKexp_next (r : BitVec 4) :
    execKexp r s = .next t ↔
      (s.flt = true ∧ t = s) ∨
        (s.flt = false ∧ ((roundOf r = none ∧ t = s.takeFault .reservedField (encode (.kexp r))) ∨
          ∃ ri, roundOf r = some ri ∧
            ((s.key (sourceKey ri) = none ∧ t = s.takeFault .invalidSource (encode (.kexp r))) ∨
              ∃ q, s.key (sourceKey ri) = some q ∧ t = s.writeKey (targetKey ri) (expandKey theRoms q ri)))) := by
  simp only [execKexp, kexpCommand, unlessFaulted_eq_next, requireIndex_eq_next, requireValid_eq_next, next_inj]

theorem execKsch_next :
    execKsch s = .next t ↔
      (s.flt = true ∧ t = s) ∨
        (s.flt = false ∧ ((s.k0 = none ∧ t = s.takeFault .invalidSource (encode .ksch)) ∨
          ∃ q, s.k0 = some q ∧
            t = (s.writeKey .k1 (expandKey theRoms q .first)).writeKey .k2
              (expandKey theRoms (expandKey theRoms q .first) .second))) := by
  simp only [execKsch, kschCommand, unlessFaulted_eq_next, requireValid_eq_next, next_inj]

theorem execEnc_next :
    execEnc s = .next t ↔
      (s.flt = true ∧ t = s) ∨
        (s.flt = false ∧ ((s.s = none ∧ t = s.takeFault .invalidSource (encode .enc)) ∨
          ∃ p, s.s = some p ∧ ((s.k0 = none ∧ t = s.takeFault .invalidSource (encode .enc)) ∨
            ∃ q0, s.k0 = some q0 ∧ ((s.k1 = none ∧ t = s.takeFault .invalidSource (encode .enc)) ∨
              ∃ q1, s.k1 = some q1 ∧ ((s.k2 = none ∧ t = s.takeFault .invalidSource (encode .enc)) ∨
                ∃ q2, s.k2 = some q2 ∧
                  t = (s.writeS (encryptBlock theRoms p q0 q1 q2)).writeDout
                    (stateToInt (encryptBlock theRoms p q0 q1 q2))))))) := by
  simp only [execEnc, encCommand, unlessFaulted_eq_next, requireValid_eq_next, next_inj]

theorem execGfm_next (a b : Nibble) :
    execGfm a b s = .next t ↔
      (s.flt = true ∧ t = s) ∨
        (s.flt = false ∧ t = s.writeDout (zext16 (gfMul a b))) := by
  simp only [execGfm, unlessFaulted_eq_next, next_inj]

theorem execSbx_next (a : Nibble) :
    execSbx a s = .next t ↔
      (s.flt = true ∧ t = s) ∨
        (s.flt = false ∧ t = s.writeDout (zext16 (theRoms.sbox a))) := by
  simp only [execSbx, sbxCommand, unlessFaulted_eq_next, next_inj]

theorem execGfn_next (r : BitVec 4) (w : BitVec 8) :
    execGfn r w s = .next t ↔
      (s.flt = true ∧ t = s) ∨
        (s.flt = false ∧ ((roundOf r = none ∧ t = s.takeFault .reservedField (encode (.gfn r w))) ∨
          ∃ ri, roundOf r = some ri ∧
            t = s.writeDout (zext16 (byteOfWord (g theRoms (wordOfByte w) ri))))) := by
  simp only [execGfn, gfnCommand, unlessFaulted_eq_next, requireIndex_eq_next, next_inj]

/-! ### All commands at once -/

/-- What a command leaves when it neither is ignored nor faults. -/
def Effect (i : Instr) (s t : State) : Prop :=
  match i with
  | .nop => t = s
  | .lds imm16 => t = s.writeS (intToState imm16)
  | .ldk imm16 => t = (s.writeKey .k0 (intToState imm16)).clearRoundKeys
  | .rds => ∃ m, s.s = some m ∧ t = s.writeDout (stateToInt m)
  | .rdk k => ∃ ki q, keyIndexOf k = some ki ∧ s.key ki = some q ∧ t = s.writeDout (stateToInt q)
  | .ark k => ∃ ki m q, keyIndexOf k = some ki ∧ s.s = some m ∧ s.key ki = some q ∧ t = s.writeS (addRoundKey m q)
  | .sub => ∃ m, s.s = some m ∧ t = s.writeS (substituteNibbles theRoms m)
  | .shr => ∃ m, s.s = some m ∧ t = s.writeS (shiftRows m)
  | .mix => ∃ m, s.s = some m ∧ t = s.writeS (mixColumns m)
  | .kexp r => ∃ ri q, roundOf r = some ri ∧ s.key (sourceKey ri) = some q ∧
      t = s.writeKey (targetKey ri) (expandKey theRoms q ri)
  | .ksch => ∃ q, s.k0 = some q ∧ t = (s.writeKey .k1 (expandKey theRoms q .first)).writeKey .k2
      (expandKey theRoms (expandKey theRoms q .first) .second)
  | .enc => ∃ p q0 q1 q2, s.s = some p ∧ s.k0 = some q0 ∧ s.k1 = some q1 ∧ s.k2 = some q2 ∧
      t = (s.writeS (encryptBlock theRoms p q0 q1 q2)).writeDout (stateToInt (encryptBlock theRoms p q0 q1 q2))
  | .gfm a b => t = s.writeDout (zext16 (gfMul a b))
  | .sbx a => t = s.writeDout (zext16 (theRoms.sbox a))
  | .gfn r w => ∃ ri, roundOf r = some ri ∧ t = s.writeDout (zext16 (byteOfWord (g theRoms (wordOfByte w) ri)))

/-- Everything a command can answer: it is ignored in the faulted CORE, or it takes a fault that records its own word, or it
has its effect. -/
theorem exec_next_cases {i : Instr} (h : exec i s = .next t) :
    (s.flt = true ∧ t = s) ∨ (s.flt = false ∧ ∃ c, t = s.takeFault c (encode i)) ∨
      (s.flt = false ∧ Effect i s t) := by
  cases i with
  | nop => cases hf : s.flt <;> simp_all [Effect, show t = s from execNop_next.1 h]
  | lds x => rcases (execLds_next x).1 h with h | h <;> simp_all [Effect]
  | ldk x => rcases (execLdk_next x).1 h with h | h <;> simp_all [Effect]
  | gfm a b => rcases (execGfm_next a b).1 h with h | h <;> simp_all [Effect]
  | sbx a => rcases (execSbx_next a).1 h with h | h <;> simp_all [Effect]
  | rds =>
    rcases execRds_next.1 h with h | ⟨hf, ⟨_, rfl⟩ | ⟨m, hm, rfl⟩⟩
    exacts [.inl h, .inr (.inl ⟨hf, _, rfl⟩), .inr (.inr ⟨hf, m, hm, rfl⟩)]
  | sub =>
    rcases execSub_next.1 h with h | ⟨hf, ⟨_, rfl⟩ | ⟨m, hm, rfl⟩⟩
    exacts [.inl h, .inr (.inl ⟨hf, _, rfl⟩), .inr (.inr ⟨hf, m, hm, rfl⟩)]
  | shr =>
    rcases execShr_next.1 h with h | ⟨hf, ⟨_, rfl⟩ | ⟨m, hm, rfl⟩⟩
    exacts [.inl h, .inr (.inl ⟨hf, _, rfl⟩), .inr (.inr ⟨hf, m, hm, rfl⟩)]
  | mix =>
    rcases execMix_next.1 h with h | ⟨hf, ⟨_, rfl⟩ | ⟨m, hm, rfl⟩⟩
    exacts [.inl h, .inr (.inl ⟨hf, _, rfl⟩), .inr (.inr ⟨hf, m, hm, rfl⟩)]
  | ksch =>
    rcases execKsch_next.1 h with h | ⟨hf, ⟨_, rfl⟩ | ⟨q, hq, rfl⟩⟩
    exacts [.inl h, .inr (.inl ⟨hf, _, rfl⟩), .inr (.inr ⟨hf, q, hq, rfl⟩)]
  | gfn r w =>
    rcases (execGfn_next r w).1 h with h | ⟨hf, ⟨_, rfl⟩ | ⟨ri, hr, rfl⟩⟩
    exacts [.inl h, .inr (.inl ⟨hf, _, rfl⟩), .inr (.inr ⟨hf, ri, hr, rfl⟩)]
  | rdk k =>
    rcases (execRdk_next k).1 h with h | ⟨hf, ⟨_, rfl⟩ | ⟨ki, hk, ⟨_, rfl⟩ | ⟨q, hq, rfl⟩⟩⟩
    exacts [.inl h, .inr (.inl ⟨hf, _, rfl⟩), .inr (.inl ⟨hf, _, rfl⟩), .inr (.inr ⟨hf, ki, q, hk, hq, rfl⟩)]
  | kexp r =>
    rcases (execKexp_next r).1 h with h | ⟨hf, ⟨_, rfl⟩ | ⟨ri, hr, ⟨_, rfl⟩ | ⟨q, hq, rfl⟩⟩⟩
    exacts [.inl h, .inr (.inl ⟨hf, _, rfl⟩), .inr (.inl ⟨hf, _, rfl⟩), .inr (.inr ⟨hf, ri, q, hr, hq, rfl⟩)]
  | ark k =>
    rcases (execArk_next k).1 h with
      h | ⟨hf, ⟨_, rfl⟩ | ⟨ki, hk, ⟨_, rfl⟩ | ⟨m, hm, ⟨_, rfl⟩ | ⟨q, hq, rfl⟩⟩⟩⟩
    exacts [.inl h, .inr (.inl ⟨hf, _, rfl⟩), .inr (.inl ⟨hf, _, rfl⟩), .inr (.inl ⟨hf, _, rfl⟩),
      .inr (.inr ⟨hf, ki, m, q, hk, hm, hq, rfl⟩)]
  | enc =>
    rcases execEnc_next.1 h with
      h | ⟨hf, ⟨_, rfl⟩ | ⟨p, hp, ⟨_, rfl⟩ | ⟨q0, h0, ⟨_, rfl⟩ | ⟨q1, h1, ⟨_, rfl⟩ | ⟨q2, h2, rfl⟩⟩⟩⟩⟩
    exacts [.inl h, .inr (.inl ⟨hf, _, rfl⟩), .inr (.inl ⟨hf, _, rfl⟩), .inr (.inl ⟨hf, _, rfl⟩),
      .inr (.inl ⟨hf, _, rfl⟩), .inr (.inr ⟨hf, p, q0, q1, q2, hp, h0, h1, h2, rfl⟩)]

end Sys2Proof.Machine
end

