-- ==== Sys2Proof/Laws/Encoding.lean ====
section
/-! SUPPORT. The fields of an assembled word, each said once; a word is its fields; and what decoding answers for a word
given by its fields. -/

namespace Sys2Proof

/-! ### Fields of an assembled word -/

section Fields
variable (op idx op' idx' : BitVec 4) (imm imm' : Block)

theorem getLsbD_assembleFields (n : Nat) :
    (assembleFields op idx imm).getLsbD n =
      if n < 16 then imm.getLsbD n else if n < 20 then idx.getLsbD (n - 16) else op.getLsbD (n - 20) := by
  simp only [assembleFields, BitVec.getLsbD_append]
  grind

@[simp] theorem opField_assembleFields : opField (assembleFields op idx imm) = op := by
  apply BitVec.eq_of_getLsbD_eq
  intro n hn
  simp only [opField, BitVec.getLsbD_extractLsb', getLsbD_assembleFields]
  grind

@[simp] theorem idxField_assembleFields : idxField (assembleFields op idx imm) = idx := by
  apply BitVec.eq_of_getLsbD_eq
  intro n hn
  simp only [idxField, BitVec.getLsbD_extractLsb', getLsbD_assembleFields]
  grind

@[simp] theorem immField_assembleFields : immField (assembleFields op idx imm) = imm := by
  apply BitVec.eq_of_getLsbD_eq
  intro n hn
  simp only [immField, BitVec.getLsbD_extractLsb', getLsbD_assembleFields]
  grind

@[simp] theorem highNibbleField_assembleFields :
    highNibbleField (assembleFields op idx imm) = imm.extractLsb' 4 4 := by
  apply BitVec.eq_of_getLsbD_eq
  intro n hn
  simp only [highNibbleField, BitVec.getLsbD_extractLsb', getLsbD_assembleFields]
  grind

@[simp] theorem lowNibbleField_assembleFields :
    lowNibbleField (assembleFields op idx imm) = imm.extractLsb' 0 4 := by
  apply BitVec.eq_of_getLsbD_eq
  intro n hn
  simp only [lowNibbleField, BitVec.getLsbD_extractLsb', getLsbD_assembleFields]
  grind

@[simp] theorem byteField_assembleFields : byteField (assembleFields op idx imm) = imm.extractLsb' 0 8 := by
  apply BitVec.eq_of_getLsbD_eq
  intro n hn
  simp only [byteField, BitVec.getLsbD_extractLsb', getLsbD_assembleFields]
  grind

/-- A word is its three fields. -/
theorem assembleFields_fields (w : Command) : assembleFields (opField w) (idxField w) (immField w) = w := by
  apply BitVec.eq_of_getLsbD_eq
  intro n hn
  simp only [getLsbD_assembleFields, opField, idxField, immField, BitVec.getLsbD_extractLsb']
  grind

/-- Two assembled words are equal only field by field. -/
theorem assembleFields_inj :
    assembleFields op idx imm = assembleFields op' idx' imm' ↔ op = op' ∧ idx = idx' ∧ imm = imm' := by
  constructor
  · intro h
    refine ⟨?_, ?_, ?_⟩
    · simpa using congrArg opField h
    · simpa using congrArg idxField h
    · simpa using congrArg immField h
  · rintro ⟨rfl, rfl, rfl⟩
    rfl

/-- A mask acts field by field. -/
theorem assembleFields_and :
    assembleFields op idx imm &&& assembleFields op' idx' imm' =
      assembleFields (op &&& op') (idx &&& idx') (imm &&& imm') := by
  apply BitVec.eq_of_getLsbD_eq
  intro n hn
  simp only [BitVec.getLsbD_and, getLsbD_assembleFields]
  grind

end Fields

/-! ### Runs of bits of an assembled word, as R232 names them -/

section Runs
variable (op idx : BitVec 4) (imm : Block)

theorem bits23to20_assembleFields : (assembleFields op idx imm).extractLsb' 20 4 = op :=
  opField_assembleFields op idx imm

theorem bits19to16_assembleFields : (assembleFields op idx imm).extractLsb' 16 4 = idx :=
  idxField_assembleFields op idx imm

/-- A run of bits inside `cmd[15:0]` is a run of the immediate. -/
theorem immBits_assembleFields {k len : Nat} (h : k + len ≤ 16) :
    (assembleFields op idx imm).extractLsb' k len = imm.extractLsb' k len := by
  apply BitVec.eq_of_getLsbD_eq
  intro n hn
  simp only [BitVec.getLsbD_extractLsb', getLsbD_assembleFields]
  grind

/-- A run of bits `cmd[19:k]` is 0 exactly when the index and the immediate's bits from `k` up are. -/
theorem bits19to_assembleFields_eq_zero_iff {k len : Nat} (h : k + len = 16) :
    (assembleFields op idx imm).extractLsb' k (4 + len) = 0#(4 + len) ↔
      idx = 0#4 ∧ imm.extractLsb' k len = 0#len := by
  constructor
  · intro hz
    have hbit (n : Nat) := congrArg (BitVec.getLsbD · n) hz
    simp only [BitVec.getLsbD_extractLsb', getLsbD_assembleFields, BitVec.getLsbD_zero] at hbit
    refine ⟨BitVec.eq_of_getLsbD_eq fun n hn => ?_, BitVec.eq_of_getLsbD_eq fun n hn => ?_⟩
    · have hn' := hbit (len + n)
      rw [BitVec.getLsbD_zero]
      grind
    · have hn' := hbit n
      rw [BitVec.getLsbD_extractLsb', BitVec.getLsbD_zero]
      grind
  · rintro ⟨hidx, himm⟩
    apply BitVec.eq_of_getLsbD_eq
    intro n hn
    have hbit := congrArg (BitVec.getLsbD · n) himm
    simp only [BitVec.getLsbD_extractLsb', getLsbD_assembleFields, BitVec.getLsbD_zero, hidx] at hbit ⊢
    grind

theorem bits19to0_assembleFields_eq_zero_iff :
    (assembleFields op idx imm).extractLsb' 0 20 = 0#20 ↔ idx = 0#4 ∧ imm = 0#16 := by
  have h := bits19to_assembleFields_eq_zero_iff op idx imm (k := 0) (len := 16) rfl
  rwa [BitVec.extractLsb'_eq_self] at h

theorem bits19to8_assembleFields_eq_zero_iff :
    (assembleFields op idx imm).extractLsb' 8 12 = 0#12 ↔ idx = 0#4 ∧ imm.extractLsb' 8 8 = 0#8 :=
  bits19to_assembleFields_eq_zero_iff op idx imm (k := 8) (len := 8) rfl

theorem bits19to4_assembleFields_eq_zero_iff :
    (assembleFields op idx imm).extractLsb' 4 16 = 0#16 ↔ idx = 0#4 ∧ imm.extractLsb' 4 12 = 0#12 :=
  bits19to_assembleFields_eq_zero_iff op idx imm (k := 4) (len := 12) rfl

end Runs

/-- To show something of every word, show it of every assembled word. -/
theorem forall_command_iff_fields {P : Command → Prop} :
    (∀ w, P w) ↔ ∀ op idx imm, P (assembleFields op idx imm) :=
  ⟨fun h _ _ _ => h _, fun h w => assembleFields_fields w ▸ h _ _ _⟩

/-! ### The parts of an immediate -/

theorem highByte_zero_append_byte (w : BitVec 8) : (0#8 ++ w : Block).extractLsb' 8 8 = 0#8 := by
  apply BitVec.eq_of_getLsbD_eq
  intro n hn
  simp only [BitVec.getLsbD_extractLsb', BitVec.getLsbD_append]
  grind

theorem lowByte_zero_append_byte (w : BitVec 8) : (0#8 ++ w : Block).extractLsb' 0 8 = w := by
  apply BitVec.eq_of_getLsbD_eq
  intro n hn
  simp only [BitVec.getLsbD_extractLsb', BitVec.getLsbD_append]
  grind

theorem highByte_zero_append_nibbles (a b : Nibble) : (0#8 ++ a ++ b : Block).extractLsb' 8 8 = 0#8 := by
  apply BitVec.eq_of_getLsbD_eq
  intro n hn
  simp only [BitVec.getLsbD_extractLsb', BitVec.getLsbD_append]
  grind

theorem highNibble_append_nibbles (a b : Nibble) : (0#8 ++ a ++ b : Block).extractLsb' 4 4 = a := by
  apply BitVec.eq_of_getLsbD_eq
  intro n hn
  simp only [BitVec.getLsbD_extractLsb', BitVec.getLsbD_append]
  grind

theorem lowNibble_append_nibbles (a b : Nibble) : (0#8 ++ a ++ b : Block).extractLsb' 0 4 = b := by
  apply BitVec.eq_of_getLsbD_eq
  intro n hn
  simp only [BitVec.getLsbD_extractLsb', BitVec.getLsbD_append]
  grind

theorem highTwelve_zero_append (a : Nibble) : (0#12 ++ a : Block).extractLsb' 4 12 = 0#12 := by
  apply BitVec.eq_of_getLsbD_eq
  intro n hn
  simp only [BitVec.getLsbD_extractLsb', BitVec.getLsbD_append]
  grind

theorem lowNibble_zero_append (a : Nibble) : (0#12 ++ a : Block).extractLsb' 0 4 = a := by
  apply BitVec.eq_of_getLsbD_eq
  intro n hn
  simp only [BitVec.getLsbD_extractLsb', BitVec.getLsbD_append]
  grind

/-! ### Decoding a word given by its fields -/

/-- The range check of an index operand looks at the index field only. -/
theorem indexInRange_assembleFields (row : OpcodeRow) (op idx : BitVec 4) (imm : Block) :
    row.indexInRange (assembleFields op idx imm) = row.maxIndex.all fun m => decide (idx.toNat ≤ m) := by
  unfold OpcodeRow.indexInRange
  cases row.maxIndex <;> simp

/-- A word whose opcode has no row. -/
theorem decode_of_no_row {w : Command} (h : opcodeRow (opField w) = none) :
    decode w = .error .illegalOpcode := by simp [decode, h]

/-- A word whose opcode has a row decodes by that row's mask and range check. -/
theorem decode_of_row {w : Command} {row : OpcodeRow} (h : opcodeRow (opField w) = some row) :
    decode w =
      if w &&& row.mask = row.pattern ∧ row.indexInRange w = true then .ok (row.build w)
      else .error .reservedField := by
  simp only [decode, h]
  split <;> simp_all

/-- Only opcode 0xF has no row (R73, R77). -/
theorem opcodeRow_eq_none_iff : ∀ op : BitVec 4, opcodeRow op = none ↔ op = 0xF#4 := by
  intro op
  constructor
  · intro h
    have hlt := op.isLt
    revert h
    unfold opcodeRow
    split <;> simp
    apply BitVec.eq_of_toNat_eq
    simp only [BitVec.toNat_ofNat]
    grind
  · rintro rfl
    rfl

theorem nibble_and_all (v : BitVec 4) : v &&& 0xF#4 = v := BitVec.and_allOnes (x := v)

/-- Decoding by fields: the opcode selects the row, the masked index and immediate bits must be 0, the index in range. -/
theorem decode_assembleFields {op mi idx : BitVec 4} {mm imm : Block} {row : OpcodeRow}
    (h : opcodeRow op = some row) (hmask : row.mask = assembleFields 0xF#4 mi mm)
    (hpattern : row.pattern = assembleFields op 0#4 0#16) :
    decode (assembleFields op idx imm) =
      if idx &&& mi = 0#4 ∧ imm &&& mm = 0#16 ∧ (row.maxIndex.all fun m => decide (idx.toNat ≤ m)) = true then
        .ok (row.build (assembleFields op idx imm))
      else .error .reservedField := by
  rw [decode_of_row (row := row) (by simpa using h), hmask, hpattern, indexInRange_assembleFields]
  simp only [assembleFields_and, assembleFields_inj, nibble_and_all, true_and, and_assoc]

theorem imm_and_all (imm : Block) : imm &&& 0xFFFF#16 = imm := BitVec.and_allOnes (x := imm)

/-- Masking the bits from `k` up gives 0 exactly when the field of those bits is 0. -/
theorem imm_and_from_eq_zero {k len : Nat} (imm mask : Block) (hk : k + len = 16)
    (hmask : ∀ n < 16, mask.getLsbD n = decide (k ≤ n)) :
    imm &&& mask = 0#16 ↔ imm.extractLsb' k len = 0#len := by
  constructor
  · intro h
    apply BitVec.eq_of_getLsbD_eq
    intro n hn
    have hbit := congrArg (BitVec.getLsbD · (k + n)) h
    simp only [BitVec.getLsbD_and, hmask (k + n) (by omega)] at hbit
    simpa [BitVec.getLsbD_extractLsb', hn] using hbit
  · intro h
    apply BitVec.eq_of_getLsbD_eq
    intro n hn
    have hbit := congrArg (BitVec.getLsbD · (n - k)) h
    simp only [BitVec.getLsbD_extractLsb', BitVec.getLsbD_zero] at hbit
    simp only [BitVec.getLsbD_and, hmask n hn, BitVec.getLsbD_zero]
    by_cases hkn : k ≤ n
    · rw [show k + (n - k) = n by omega] at hbit
      grind
    · simp [hkn]

theorem imm_and_highByte_eq_zero (imm : Block) : imm &&& 0xFF00#16 = 0#16 ↔ imm.extractLsb' 8 8 = 0#8 :=
  imm_and_from_eq_zero imm _ rfl (by decide)

theorem imm_and_highTwelve_eq_zero (imm : Block) : imm &&& 0xFFF0#16 = 0#16 ↔ imm.extractLsb' 4 12 = 0#12 :=
  imm_and_from_eq_zero imm _ rfl (by decide)

theorem decode_fields_nop (idx : BitVec 4) (imm : Block) :
    decode (assembleFields 0x0#4 idx imm) = if idx = 0#4 ∧ imm = 0#16 then .ok .nop else .error .reservedField := by
  rw [decode_assembleFields (mi := 0xF#4) (mm := 0xFFFF#16) rfl rfl rfl]
  simp [nibble_and_all, imm_and_all]

theorem decode_fields_rds (idx : BitVec 4) (imm : Block) :
    decode (assembleFields 0x3#4 idx imm) = if idx = 0#4 ∧ imm = 0#16 then .ok .rds else .error .reservedField := by
  rw [decode_assembleFields (mi := 0xF#4) (mm := 0xFFFF#16) rfl rfl rfl]
  simp [nibble_and_all, imm_and_all]

theorem decode_fields_sub (idx : BitVec 4) (imm : Block) :
    decode (assembleFields 0x6#4 idx imm) = if idx = 0#4 ∧ imm = 0#16 then .ok .sub else .error .reservedField := by
  rw [decode_assembleFields (mi := 0xF#4) (mm := 0xFFFF#16) rfl rfl rfl]
  simp [nibble_and_all, imm_and_all]

theorem decode_fields_shr (idx : BitVec 4) (imm : Block) :
    decode (assembleFields 0x7#4 idx imm) = if idx = 0#4 ∧ imm = 0#16 then .ok .shr else .error .reservedField := by
  rw [decode_assembleFields (mi := 0xF#4) (mm := 0xFFFF#16) rfl rfl rfl]
  simp [nibble_and_all, imm_and_all]

theorem decode_fields_mix (idx : BitVec 4) (imm : Block) :
    decode (assembleFields 0x8#4 idx imm) = if idx = 0#4 ∧ imm = 0#16 then .ok .mix else .error .reservedField := by
  rw [decode_assembleFields (mi := 0xF#4) (mm := 0xFFFF#16) rfl rfl rfl]
  simp [nibble_and_all, imm_and_all]

theorem decode_fields_ksch (idx : BitVec 4) (imm : Block) :
    decode (assembleFields 0xA#4 idx imm) = if idx = 0#4 ∧ imm = 0#16 then .ok .ksch else .error .reservedField := by
  rw [decode_assembleFields (mi := 0xF#4) (mm := 0xFFFF#16) rfl rfl rfl]
  simp [nibble_and_all, imm_and_all]

theorem decode_fields_enc (idx : BitVec 4) (imm : Block) :
    decode (assembleFields 0xB#4 idx imm) = if idx = 0#4 ∧ imm = 0#16 then .ok .enc else .error .reservedField := by
  rw [decode_assembleFields (mi := 0xF#4) (mm := 0xFFFF#16) rfl rfl rfl]
  simp [nibble_and_all, imm_and_all]

theorem decode_fields_lds (idx : BitVec 4) (imm : Block) :
    decode (assembleFields 0x1#4 idx imm) = if idx = 0#4 then .ok (.lds imm) else .error .reservedField := by
  rw [decode_assembleFields (mi := 0xF#4) (mm := 0#16) rfl rfl rfl]
  simp [nibble_and_all]

theorem decode_fields_ldk (idx : BitVec 4) (imm : Block) :
    decode (assembleFields 0x2#4 idx imm) = if idx = 0#4 then .ok (.ldk imm) else .error .reservedField := by
  rw [decode_assembleFields (mi := 0xF#4) (mm := 0#16) rfl rfl rfl]
  simp [nibble_and_all]

theorem decode_fields_rdk (idx : BitVec 4) (imm : Block) :
    decode (assembleFields 0x4#4 idx imm) =
      if idx.toNat ≤ 2 ∧ imm = 0#16 then .ok (.rdk idx) else .error .reservedField := by
  rw [decode_assembleFields (mi := 0#4) (mm := 0xFFFF#16) rfl rfl rfl]
  simp [imm_and_all, and_comm]

theorem decode_fields_ark (idx : BitVec 4) (imm : Block) :
    decode (assembleFields 0x5#4 idx imm) =
      if idx.toNat ≤ 2 ∧ imm = 0#16 then .ok (.ark idx) else .error .reservedField := by
  rw [decode_assembleFields (mi := 0#4) (mm := 0xFFFF#16) rfl rfl rfl]
  simp [imm_and_all, and_comm]

theorem decode_fields_kexp (idx : BitVec 4) (imm : Block) :
    decode (assembleFields 0x9#4 idx imm) =
      if idx.toNat ≤ 1 ∧ imm = 0#16 then .ok (.kexp idx) else .error .reservedField := by
  rw [decode_assembleFields (mi := 0#4) (mm := 0xFFFF#16) rfl rfl rfl]
  simp [imm_and_all, and_comm]

theorem decode_fields_gfm (idx : BitVec 4) (imm : Block) :
    decode (assembleFields 0xC#4 idx imm) =
      if idx = 0#4 ∧ imm.extractLsb' 8 8 = 0#8 then .ok (.gfm (imm.extractLsb' 4 4) (imm.extractLsb' 0 4))
      else .error .reservedField := by
  rw [decode_assembleFields (mi := 0xF#4) (mm := 0xFF00#16) rfl rfl rfl]
  simp [nibble_and_all, imm_and_highByte_eq_zero]

theorem decode_fields_sbx (idx : BitVec 4) (imm : Block) :
    decode (assembleFields 0xD#4 idx imm) =
      if idx = 0#4 ∧ imm.extractLsb' 4 12 = 0#12 then .ok (.sbx (imm.extractLsb' 0 4))
      else .error .reservedField := by
  rw [decode_assembleFields (mi := 0xF#4) (mm := 0xFFF0#16) rfl rfl rfl]
  simp [nibble_and_all, imm_and_highTwelve_eq_zero]

theorem decode_fields_gfn (idx : BitVec 4) (imm : Block) :
    decode (assembleFields 0xE#4 idx imm) =
      if idx.toNat ≤ 1 ∧ imm.extractLsb' 8 8 = 0#8 then .ok (.gfn idx (imm.extractLsb' 0 8))
      else .error .reservedField := by
  rw [decode_assembleFields (mi := 0#4) (mm := 0xFF00#16) rfl rfl rfl]
  simp [imm_and_highByte_eq_zero, and_comm]

theorem decode_fields_reserved (idx : BitVec 4) (imm : Block) :
    decode (assembleFields 0xF#4 idx imm) = .error .illegalOpcode :=
  decode_of_no_row (by simp [(opcodeRow_eq_none_iff _).2])

end Sys2Proof
end

