-- ==== Sys2Proof/Laws/History.lean ====
section
/-! SUPPORT. What one more command at the end of a history changes in what has been done since reset and since the last
`LDK`. -/

namespace Sys2Proof.Machine

variable (h : List Instr) (i : Instr)

theorem hasLds_concat : hasLds (h ++ [i]) = (hasLds h || hasLds [i]) := by simp [hasLds]

/-- An `LDK` starts afresh; any other command joins what came after the last one. -/
theorem sinceLastLdk_concat :
    sinceLastLdk (h ++ [i]) =
      match i with
      | .ldk _ => some []
      | _ => (sinceLastLdk h).map (· ++ [i]) := by
  induction h with
  | nil => cases i <;> rfl
  | cons a h ih =>
    simp only [List.cons_append, sinceLastLdk, ih]
    cases i <;> (try rfl) <;> cases sinceLastLdk h <;> simp <;> cases a <;> rfl

theorem firstStepDone_concat : firstStepDone (h ++ [i]) = (firstStepDone h || (i == .kexp 0#4 || i == .ksch)) := by
  simp [firstStepDone]

/-- Round key 2 is made by a KSCH at the end, or by a `KEXP 1` at the end after a `KEXP 0`. -/
theorem secondStepDone_concat :
    secondStepDone (h ++ [i]) =
      (secondStepDone h || i == .ksch || (i == .kexp 1#4 && h.any (· == .kexp 0#4))) := by
  induction h with
  | nil => simp [secondStepDone]
  | cons a h ih =>
    simp only [List.cons_append, secondStepDone, ih, List.any_append, List.any_cons, List.any_nil]
    cases (a == .ksch) <;> cases (a == .kexp 0#4) <;> cases h.any (· == .kexp 1#4) <;> cases secondStepDone h <;>
      cases (i == .ksch) <;> cases (i == .kexp 1#4) <;> cases h.any (· == .kexp 0#4) <;> rfl

end Sys2Proof.Machine
end

