-- ==== Sys2Proof/Laws/Run.lean ====
section
/-! SUPPORT. Runs of the machine taken apart: the host's later events change nothing about a command, a run goes event by
event, and it can be cut in two. -/

namespace Sys2Proof.Machine

/-! ### A command never looks at the events after it -/

theorem exec_of_faulted {s : State} (h : s.flt = true) (i : Instr) : exec i s = .next s := by
  cases i <;> exact unlessFaulted_of_faulted h _

/-- With other events still to come, the command answers the same state with those events still to come. -/
theorem exec_withInput (i : Instr) (es : List HostEvent) (s : State) :
    ∃ t, exec i s = .next t ∧ exec i { s with input := es } = .next { t with input := es } := by
  obtain ⟨m, q0, q1, q2, d, f, c, w, inp⟩ := s
  cases f
  case true => exact ⟨_, exec_of_faulted rfl i, exec_of_faulted rfl i⟩
  cases i with
  | rdk k =>
    simp only [exec, execRdk, unlessFaulted_of_running]
    rcases keyIndexOf k with _ | ki
    · exact ⟨_, rfl, rfl⟩
    · cases ki <;> [cases q0; cases q1; cases q2] <;> exact ⟨_, rfl, rfl⟩
  | ark k =>
    simp only [exec, execArk, unlessFaulted_of_running]
    rcases keyIndexOf k with _ | ki
    · exact ⟨_, rfl, rfl⟩
    · cases m <;> cases ki <;> [cases q0; cases q1; cases q2; cases q0; cases q1; cases q2] <;>
        exact ⟨_, rfl, rfl⟩
  | kexp r =>
    simp only [exec, execKexp, kexpCommand, unlessFaulted_of_running]
    rcases roundOf r with _ | ri
    · exact ⟨_, rfl, rfl⟩
    · cases ri <;> [cases q0; cases q1] <;> exact ⟨_, rfl, rfl⟩
  | gfn r w =>
    simp only [exec, execGfn, gfnCommand, unlessFaulted_of_running]
    rcases roundOf r with _ | ri <;> exact ⟨_, rfl, rfl⟩
  | enc => cases m <;> cases q0 <;> cases q1 <;> cases q2 <;> exact ⟨_, rfl, rfl⟩
  | ksch => cases q0 <;> exact ⟨_, rfl, rfl⟩
  | nop => exact ⟨_, rfl, rfl⟩
  | lds _ => exact ⟨_, rfl, rfl⟩
  | ldk _ => exact ⟨_, rfl, rfl⟩
  | gfm _ _ => exact ⟨_, rfl, rfl⟩
  | sbx _ => exact ⟨_, rfl, rfl⟩
  | rds => cases m <;> exact ⟨_, rfl, rfl⟩
  | sub => cases m <;> exact ⟨_, rfl, rfl⟩
  | shr => cases m <;> exact ⟨_, rfl, rfl⟩
  | mix => cases m <;> exact ⟨_, rfl, rfl⟩

theorem accept_withInput (w : Command) (es : List HostEvent) (s : State) :
    ∃ t, accept w s = .next t ∧ accept w { s with input := es } = .next { t with input := es } := by
  unfold accept
  cases decode w with
  | ok i => exact exec_withInput i es s
  | error d =>
    obtain ⟨m, q0, q1, q2, o, f, c, v, inp⟩ := s
    cases f <;> exact ⟨_, rfl, rfl⟩

theorem accept_eq_commit (w : Command) (s : State) : accept w s = .next (commit w s) := by
  obtain ⟨t, h, -⟩ := accept_withInput w [] s
  simp only [commit, h]

/-! ### Event by event -/

@[simp] theorem runEvents_nil (s : State) : runEvents [] s = .next { s with input := [] } := rfl

/-- The input a run starts from is its own list of events, whatever the state carried before. -/
theorem runEvents_input (es es' : List HostEvent) (s : State) :
    runEvents es { s with input := es' } = runEvents es s := rfl

/-- One event, then the rest. -/
theorem runEvents_cons {e : HostEvent} {es : List HostEvent} {s t : State}
    (h : step { s with input := e :: es } = .next t) (ht : t.input = es) :
    runEvents (e :: es) s = runEvents es t := by
  have hcore : Sys2Proof.core.step { s with input := e :: es } = .next t := h
  simp only [runEvents, List.length_cons, Host.Core.run]
  rw [hcore]
  subst ht
  rfl

theorem runEvents_command {w : Command} {es : List HostEvent} {s t : State}
    (h : accept w { s with input := es } = .next t) (ht : t.input = es) :
    runEvents (.command w :: es) s = runEvents es t :=
  runEvents_cons (by rw [step_of_command rfl]; exact h) ht

@[simp] theorem runEvents_reset (es : List HostEvent) (s : State) :
    runEvents (.reset :: es) s = runEvents es State.reset := by
  rw [runEvents_cons (t := { State.reset with input := es }) (step_of_reset rfl) rfl, runEvents_input]

/-- One accepted word, then the rest: no case is lost, since accepting a word always answers a next state. -/
@[simp] theorem runEvents_command_commit (w : Command) (es : List HostEvent) (s : State) :
    runEvents (.command w :: es) s = runEvents es (commit w s) := by
  obtain ⟨t, h, h'⟩ := accept_withInput w es s
  rw [runEvents_command h' rfl, runEvents_input]
  simp only [commit, h]

/-- A run goes through its first events and then through the others. -/
theorem runEvents_append (es es' : List HostEvent) (s : State) :
    ∃ t, runEvents es s = .next t ∧ runEvents (es ++ es') s = runEvents es' t := by
  induction es generalizing s with
  | nil => exact ⟨_, rfl, (runEvents_input es' [] s).symm⟩
  | cons e es ih =>
    cases e with
    | command w => simpa using ih (commit w s)
    | reset => simpa using ih State.reset

end Sys2Proof.Machine
end

