-- ==== Sys2Proof/Laws/Host.lean ====
section
/-! SUPPORT. The host's software taken apart: sending one word is committing it, the byte count and the cut of an ECB
output, and what cutting a text into blocks depends on. -/

namespace Sys2Proof.Machine

/-! ### Sending commands -/

@[simp] theorem issueWord_eq_commit (s : State) (w : Command) : issueWord s w = commit w s := rfl

@[simp] theorem issue_nil (s : State) : issue [] s = s := rfl

@[simp] theorem issue_cons (i : Instr) (is : List Instr) (s : State) :
    issue (i :: is) s = issue is (commit (encode i) s) := rfl

/-! ### Output -/

@[simp] theorem length_serialise (c : Block) : (serialise c).length = 2 := rfl

theorem length_encryptBlocks (roms : Roms) (key : Block) (bs : List Block) :
    (encryptBlocks roms key bs).length = 2 * bs.length := by
  induction bs with
  | nil => rfl
  | cons b bs ih => simp only [encryptBlocks, List.length_append, length_serialise, ih, List.length_cons]; omega

theorem encryptBlocks_append (roms : Roms) (key : Block) (bs bs' : List Block) :
    encryptBlocks roms key (bs ++ bs') = encryptBlocks roms key bs ++ encryptBlocks roms key bs' := by
  induction bs with
  | nil => rfl
  | cons b bs ih => simp only [List.cons_append, encryptBlocks, ih, List.append_assoc]

/-! ### Text -/

theorem charCode_of_le {c : Char} (h : c.toNat ≤ 255) : charCode c = .ok (BitVec.ofNat 8 c.toNat) := if_pos h

/-- Only the padded chunks matter for the blocks. -/
theorem chunksToInts_congr {cs cs' : List (List Char)} (h : cs.map padChunk = cs'.map padChunk) :
    chunksToInts cs = chunksToInts cs' := by
  induction cs generalizing cs' with
  | nil => cases cs' with
    | nil => rfl
    | cons c cs' => simp at h
  | cons c cs ih => cases cs' with
    | nil => simp at h
    | cons c' cs' =>
      simp only [List.map_cons, List.cons.injEq] at h
      simp only [chunksToInts, h.1, ih h.2]

/-- After an even number of characters the next chunk begins. -/
theorem chunks_append {text : List Char} (h : text.length % 2 = 0) (text' : List Char) :
    chunks (text ++ text') = chunks text ++ chunks text' := by
  induction text using chunks.induct with
  | case1 => rfl
  | case2 c => simp at h
  | case3 c0 c1 rest ih =>
    simp only [List.cons_append, chunks]
    rw [ih (by simp only [List.length_cons] at h; omega)]

/-! ### Key -/

theorem checkKey_of_mem {key : Int} (h : 0 ≤ key ∧ key ≤ 65535) : checkKey key = .ok (BitVec.ofInt 16 key) := if_pos h

theorem checkKey_of_not_mem {key : Int} (h : ¬(0 ≤ key ∧ key ≤ 65535)) : checkKey key = .error .keyRange := if_neg h

end Sys2Proof.Machine
end

