-- ==== Sys2Proof/Laws/PerInstr.lean ====
section
/-! SUPPORT. One family of statements made per instruction: the word of a command is matched by the row of its own opcode,
and being well formed is exactly passing that row's range check (30_encoding.md R71, R73, R75). -/

namespace Sys2Proof.Laws.OwnRow

/-- The row of the opcode in `encode i` matches that word, and its range check decides whether `i` is well formed. -/
def Statement (i : Instr) : Prop :=
  ∃ row, opcodeRow (opField (encode i)) = some row ∧ encode i &&& row.mask = row.pattern ∧
    row.indexInRange (encode i) = i.wellFormed

/-- What a row must satisfy for the word of fields `op`, `idx`, `imm` to be matched by it. -/
theorem of_fields {i : Instr} {op idx mi : BitVec 4} {imm mm : Block} (row : OpcodeRow)
    (henc : encode i = assembleFields op idx imm) (hrow : opcodeRow op = some row)
    (hmask : row.mask = assembleFields 0xF#4 mi mm) (hpattern : row.pattern = assembleFields op 0#4 0#16)
    (hidx : idx &&& mi = 0#4) (himm : imm &&& mm = 0#16)
    (hrange : (row.maxIndex.all fun m => decide (idx.toNat ≤ m)) = i.wellFormed) : Statement i := by
  refine ⟨row, ?_, ?_, ?_⟩
  · rw [henc, opField_assembleFields, hrow]
  · rw [henc, hmask, hpattern, assembleFields_and, assembleFields_inj]
    exact ⟨nibble_and_all op, hidx, himm⟩
  · rw [henc, indexInRange_assembleFields, hrange]

theorem nop : Statement .nop := of_fields _ rfl rfl (mi := 0xF#4) (mm := 0xFFFF#16) rfl rfl rfl rfl rfl

theorem lds (imm16 : Block) : Statement (.lds imm16) :=
  of_fields _ rfl rfl (mi := 0xF#4) (mm := 0#16) rfl rfl rfl (by simp) rfl

theorem ldk (imm16 : Block) : Statement (.ldk imm16) :=
  of_fields _ rfl rfl (mi := 0xF#4) (mm := 0#16) rfl rfl rfl (by simp) rfl

theorem rds : Statement .rds := of_fields _ rfl rfl (mi := 0xF#4) (mm := 0xFFFF#16) rfl rfl rfl rfl rfl

theorem rdk (k : BitVec 4) : Statement (.rdk k) :=
  of_fields _ rfl rfl (mi := 0#4) (mm := 0xFFFF#16) rfl rfl (by simp) rfl rfl

theorem ark (k : BitVec 4) : Statement (.ark k) :=
  of_fields _ rfl rfl (mi := 0#4) (mm := 0xFFFF#16) rfl rfl (by simp) rfl rfl

theorem sub : Statement .sub := of_fields _ rfl rfl (mi := 0xF#4) (mm := 0xFFFF#16) rfl rfl rfl rfl rfl

theorem shr : Statement .shr := of_fields _ rfl rfl (mi := 0xF#4) (mm := 0xFFFF#16) rfl rfl rfl rfl rfl

theorem mix : Statement .mix := of_fields _ rfl rfl (mi := 0xF#4) (mm := 0xFFFF#16) rfl rfl rfl rfl rfl

theorem kexp (r : BitVec 4) : Statement (.kexp r) :=
  of_fields _ rfl rfl (mi := 0#4) (mm := 0xFFFF#16) rfl rfl (by simp) rfl rfl

theorem ksch : Statement .ksch := of_fields _ rfl rfl (mi := 0xF#4) (mm := 0xFFFF#16) rfl rfl rfl rfl rfl

theorem enc : Statement .enc := of_fields _ rfl rfl (mi := 0xF#4) (mm := 0xFFFF#16) rfl rfl rfl rfl rfl

theorem gfm (a b : Nibble) : Statement (.gfm a b) :=
  of_fields _ rfl rfl (mi := 0xF#4) (mm := 0xFF00#16) rfl rfl rfl
    ((imm_and_highByte_eq_zero _).2 (highByte_zero_append_nibbles a b)) rfl

theorem sbx (a : Nibble) : Statement (.sbx a) :=
  of_fields _ rfl rfl (mi := 0xF#4) (mm := 0xFFF0#16) rfl rfl rfl
    ((imm_and_highTwelve_eq_zero _).2 (highTwelve_zero_append a)) rfl

theorem gfn (r : BitVec 4) (w : BitVec 8) : Statement (.gfn r w) :=
  of_fields _ rfl rfl (mi := 0#4) (mm := 0xFF00#16) rfl rfl (by simp)
    ((imm_and_highByte_eq_zero _).2 (highByte_zero_append_byte w)) rfl

end Sys2Proof.Laws.OwnRow
end

