-- ==== Sys2Proof/Tests/Slice0.lean ====
section
/-! SUPPORT. Small tests of the model, each with its expected value taken from spec/ (the file and section stand above each
group), and one witness for each obligation with hypotheses: a concrete state and operands that meet them all. -/

open Sys2Proof Sys2Proof.Machine Sys2Proof.Claims

namespace Sys2Proof.Tests

/-! ### Helpers: a state by its register values, and what an outcome shows -/

/-- A CORE without a fault, its registers given as 16-bit integers (95_test_vectors.md section 5). -/
def coreWith (s k0 k1 k2 dout : Option Block) : State :=
  { State.reset with
    s := s.map intToState, k0 := k0.map intToState, k1 := k1.map intToState, k2 := k2.map intToState, dout := dout }

/-- S, K0, K1, K2, DOUT, STATUS and FCMD of the next state, as section 5 of 95_test_vectors.md lists them. -/
def shown (r : Result) : Option (List (Option Block) × BitVec 16 × Command) :=
  match r with
  | .next t =>
    some ([t.s.map stateToInt, t.k0.map stateToInt, t.k1.map stateToInt, t.k2.map stateToInt, t.dout],
      t.status, t.fcmd)
  | .fault _ => none
  | .refused _ => none

/-- One command word after reset, through `withFetchWord` and one step. -/
def firstWord (w : Nat) : Option (List (Option Block) × BitVec 16 × Command) :=
  shown (step (State.reset.withFetchWord 24 w))

/-- All three keys of the textbook key schedule, with a given S and DOUT (95_test_vectors.md section 4.5). -/
def textbookKeys (s dout : Option Block) : State := coreWith s (some 0x4AF5) (some 0xDD28) (some 0x87AF) dout

/-- A CORE that has faulted on `RDS` with S empty (95_test_vectors.md section 5.2). -/
def faultedCore : State := State.reset.takeFault .invalidSource 0x300000#24

/-- What `decode` answers, in a type that can be compared. -/
def decoded (w : Command) : DecodeFault ⊕ Instr :=
  match decode w with
  | .ok i => .inr i
  | .error d => .inl d

/-! ### WellFormed: each check refuses an ill-formed term (30_encoding.md R72, R78) -/

theorem test_wellFormed_rdk : (Instr.rdk 2).wellFormed = true ∧ (Instr.rdk 3).wellFormed = false := by decide
theorem test_wellFormed_ark : (Instr.ark 2).wellFormed = true ∧ (Instr.ark 3).wellFormed = false := by decide
theorem test_wellFormed_kexp : (Instr.kexp 1).wellFormed = true ∧ (Instr.kexp 2).wellFormed = false := by decide
theorem test_wellFormed_gfn : (Instr.gfn 1 0xFF).wellFormed = true ∧ (Instr.gfn 2 0).wellFormed = false := by decide

/-! ### Decoding: one word per constructor, written out from 30_encoding.md R70 to R73 -/

theorem test_decode_moves :
    decoded 0x000000 = .inr .nop ∧ decoded 0x10D728 = .inr (.lds 0xD728) ∧ decoded 0x204AF5 = .inr (.ldk 0x4AF5) ∧
      decoded 0x300000 = .inr .rds ∧ decoded 0x420000 = .inr (.rdk 2) := by decide

theorem test_decode_rounds :
    decoded 0x510000 = .inr (.ark 1) ∧ decoded 0x600000 = .inr .sub ∧ decoded 0x700000 = .inr .shr ∧
      decoded 0x800000 = .inr .mix := by decide

theorem test_decode_keys :
    decoded 0x910000 = .inr (.kexp 1) ∧ decoded 0xA00000 = .inr .ksch ∧ decoded 0xB00000 = .inr .enc := by decide

theorem test_decode_leaves :
    decoded 0xC0004E = .inr (.gfm 4 0xE) ∧ decoded 0xD00009 = .inr (.sbx 9) ∧
      decoded 0xE10028 = .inr (.gfn 1 0x28) := by decide

/-- An immediate bit by bit: the words of LDS with one bit set at either end (R70, R72). -/
theorem test_decode_bit_by_bit :
    decoded 0b000100001000000000000001 = .inr (.lds 0b1000000000000001) ∧
      decoded 0b110000000000000010000001 = .inr (.gfm 0b1000 0b0001) ∧
      decoded 0b111000010000000010000001 = .inr (.gfn 0b0001 0b10000001) := by decide

/-- 95_test_vectors.md section 5.2, the words that spell no command. -/
theorem test_decode_illegal_opcode :
    decoded 0xF00000 = .inl .illegalOpcode ∧ decoded 0xF12345 = .inl .illegalOpcode ∧
      decoded 0xFFFFFF = .inl .illegalOpcode := by decide

theorem test_decode_reserved_bits :
    decoded 0x000001 = .inl .reservedField ∧ decoded 0x010000 = .inl .reservedField ∧
      decoded 0x110000 = .inl .reservedField ∧ decoded 0x2F0000 = .inl .reservedField ∧
      decoded 0x500001 = .inl .reservedField ∧ decoded 0x610000 = .inl .reservedField ∧
      decoded 0xA10000 = .inl .reservedField ∧ decoded 0xB0FFFF = .inl .reservedField := by decide

theorem test_decode_reserved_leaves :
    decoded 0xC00100 = .inl .reservedField ∧ decoded 0xD00010 = .inl .reservedField ∧
      decoded 0xE00100 = .inl .reservedField := by decide

theorem test_decode_reserved_index :
    decoded 0x430000 = .inl .reservedField ∧ decoded 0x920000 = .inl .reservedField ∧
      decoded 0xE20000 = .inl .reservedField := by decide

theorem test_encode_words :
    encode (.gfm 4 0xE) = 0xC0004E ∧ encode (.gfn 1 0x28) = 0xE10028 ∧ encode (.ark 1) = 0x510000 ∧
      encode (.ldk 0x4AF5) = 0x204AF5 := by decide

/-- There is no other length than 24 bits (R70, R80). -/
theorem test_decodeTableWord :
    decodeTableWord 24 0xC0004E = some (.gfm 4 0xE) ∧ decodeTableWord 24 0xF00000 = none ∧
      decodeTableWord 32 0x300000 = none ∧ decodeTableWord 24 0x1300000 = none := by decide

/-! ### One command (95_test_vectors.md section 5.1) -/

theorem test_nop : firstWord 0x000000 = some ([none, none, none, none, none], 0x0000, 0) := by decide

theorem test_lds_first : firstWord 0x10D728 = some ([some 0xD728, none, none, none, none], 0x0001, 0) := by decide

theorem test_lds_discards :
    shown (exec (.lds 0x1234) (coreWith (some 0x24EC) none none none none)) =
      some ([some 0x1234, none, none, none, none], 0x0001, 0) := by decide

theorem test_ldk_first : firstWord 0x204AF5 = some ([none, some 0x4AF5, none, none, none], 0x0002, 0) := by decide

/-- The same key again still empties the round keys. -/
theorem test_ldk_same_key :
    shown (exec (.ldk 0x4AF5) (textbookKeys none none)) =
      some ([none, some 0x4AF5, none, none, none], 0x0002, 0) := by decide

theorem test_rds :
    shown (exec .rds (coreWith (some 0x1234) none none none none)) =
      some ([some 0x1234, none, none, none, some 0x1234], 0x0011, 0) := by decide

theorem test_rdk_one :
    shown (exec (.rdk 1) (coreWith none (some 0x4AF5) (some 0xDD28) none none)) =
      some ([none, some 0x4AF5, some 0xDD28, none, some 0xDD28], 0x0016, 0) := by decide

theorem test_rdk_two :
    shown (exec (.rdk 2) (textbookKeys none (some 0xDD28))) =
      some ([none, some 0x4AF5, some 0xDD28, some 0x87AF, some 0x87AF], 0x001E, 0) := by decide

theorem test_ark_zero :
    shown (exec (.ark 0) (coreWith (some 0xD728) (some 0x4AF5) none none none)) =
      some ([some 0x9DDD, some 0x4AF5, none, none, none], 0x0003, 0) := by decide

theorem test_ark_two :
    (shown (exec (.ark 2) (textbookKeys (some 0xA343) none))).map (·.1.head?) = some (some (some 0x24EC)) := by decide

/-- The substitution with the textbook tables (section 4.2). -/
theorem test_sub :
    shown (subCommand textbookRoms (coreWith (some 0x9DDD) none none none none)) =
      some ([some 0x2EEE, none, none, none, none], 0x0001, 0) := by decide

theorem test_shr :
    shown (exec .shr (coreWith (some 0x1234) none none none none)) =
      some ([some 0x1432, none, none, none, none], 0x0001, 0) := by decide

theorem test_shr_row_zero_stays :
    shown (exec .shr (coreWith (some 0x6C40) none none none none)) =
      some ([some 0x604C, none, none, none, none], 0x0001, 0) := by decide

theorem test_mix :
    shown (exec .mix (coreWith (some 0x2EEE) none none none none)) =
      some ([some 0xF633, none, none, none, none], 0x0001, 0) := by decide

/-- A column with two different nibbles in each place (section 4.4). -/
theorem test_mix_columns_apart :
    shown (exec .mix (coreWith (some 0x1234) none none none none)) =
      some ([some 0x9608, none, none, none, none], 0x0001, 0) := by decide

theorem test_kexp_zero_keeps_round_key_two :
    shown (kexpCommand textbookRoms 0 (textbookKeys none none)) =
      some ([none, some 0x4AF5, some 0xDD28, some 0x87AF, none], 0x000E, 0) := by decide

theorem test_kexp_one :
    shown (kexpCommand textbookRoms 1 (coreWith none (some 0x4AF5) (some 0xDD28) none none)) =
      some ([none, some 0x4AF5, some 0xDD28, some 0x87AF, none], 0x000E, 0) := by decide

theorem test_ksch :
    shown (kschCommand textbookRoms (coreWith none (some 0x0000) none none none)) =
      some ([none, some 0x0000, some 0x1919, some 0x0D14, none], 0x000E, 0) := by decide

theorem test_enc :
    shown (encCommand textbookRoms (textbookKeys (some 0xD728) none)) =
      some ([some 0x24EC, some 0x4AF5, some 0xDD28, some 0x87AF, some 0x24EC], 0x001F, 0) := by decide

theorem test_gfm : firstWord 0xC0004E = some ([none, none, none, none, some 0x000D], 0x0010, 0) := by decide

/-- The largest operands, whose loop reduces at every iteration (section 2.2). -/
theorem test_gfm_largest : firstWord 0xC000FF = some ([none, none, none, none, some 0x000A], 0x0010, 0) := by decide

theorem test_sbx :
    shown (sbxCommand textbookRoms 9 State.reset) = some ([none, none, none, none, some 0x0002], 0x0010, 0) := by decide

theorem test_gfn_first :
    shown (gfnCommand textbookRoms 0 0xF5 State.reset) =
      some ([none, none, none, none, some 0x0097], 0x0010, 0) := by decide

theorem test_gfn_second :
    shown (gfnCommand textbookRoms 1 0x28 State.reset) =
      some ([none, none, none, none, some 0x005A], 0x0010, 0) := by decide

/-! ### Faults (95_test_vectors.md sections 5.2 and 5.3) -/

theorem test_fault_illegal_opcode :
    firstWord 0xF12345 = some ([none, none, none, none, none], 0x0120, 0xF12345) := by decide

/-- RDS with a reserved bit and S empty: the decoding fault comes first. -/
theorem test_fault_reserved_first :
    firstWord 0x300001 = some ([none, none, none, none, none], 0x0220, 0x300001) := by decide

theorem test_fault_invalid_source :
    firstWord 0x500000 = some ([none, none, none, none, none], 0x0320, 0x500000) := by decide

/-- `LDK ; KEXP 0 ; LDS ; ENC`, its last command: K2 is empty, and S keeps its value. -/
theorem test_fault_enc_without_round_key_two :
    shown (exec .enc (coreWith (some 0x1234) (some 0x4AF5) (some 0xDD28) none none)) =
      some ([some 0x1234, some 0x4AF5, some 0xDD28, none, none], 0x0327, 0xB00000) := by decide

/-! ### The multiplier, the host's software and the assembler -/

/-- 95_test_vectors.md section 2.2; the second product tells the two readings of 90_conflicts.md C7 apart. -/
theorem test_gfMul :
    gfMul 2 8 = 3 ∧ gfMul 8 2 = 3 ∧ gfMul 3 3 = 5 ∧ gfMul 7 3 = 9 ∧ gfMul 0xF 0xF = 0xA ∧ gfMul 0xA 0xC = 1 := by
  decide

/-- "HELLO" with key 4AF5 (sections 1.9 and 7). -/
theorem test_ecb_hello :
    (encryptEcb textbookRoms ['H', 'E', 'L', 'L', 'O'] 0x4AF5).toOption.map renderEcb =
      some ['C', 'N', 'd', 'L', '8', 'R', '/', 'g'] := by decide

/-- "OK" with key 0 (section 1.8): one block, two bytes, one padding character. -/
theorem test_ecb_ok :
    (encryptEcb textbookRoms ['O', 'K'] 0).toOption.map renderEcb = some ['m', 'q', 'c', '='] := by decide

/-- A block is printed in hexadecimal by its four digits (R219). -/
theorem test_hexText :
    hexText .upper 0x9AA7 = ['9', 'A', 'A', '7'] ∧ hexText .lower 0x9AA7 = ['9', 'a', 'a', '7'] := by decide

/-- The default SBOX and RCON of R36 and R37 have the whole encryption of section 4.6, row "OK". -/
theorem test_encrypt_ok : encrypt textbookRoms 0x4F4B 0x0000 = 0x9AA7 := by decide

/-- Assembler text and words as section 6 pairs them, with a comment and all three numeral forms. -/
theorem test_assemble :
    (assembleProgram [['G', 'F', 'M', ' ', '4', ',', ' ', '0', 'x', 'E', ' ', ';', 'p'],
      ['E', 'N', 'C', 'B', 'L', 'K', ' ', '0', 'x', 'D', '7', '2', '8'], ['A', 'R', 'K', ' ', '0', 'b', '1', '0']]
      ).toOption = some [0xC0004E, 0x10D728, 0xB00000, 0x520000] := by decide

/-- An operand out of range is refused at assembly (R81). -/
theorem test_assemble_range :
    (assembleProgram [['R', 'D', 'K', ' ', '3']]).toOption = none ∧
      (assembleProgram [['L', 'D', 'S', ' ', '6', '5', '5', '3', '6']]).toOption = none := by decide

/-! ### The port (10_state.md R43; 70_reset_and_hazards.md R261, R281) -/

/-- A command of latency 2 shows nothing after the first further edge and is complete after the second. -/
theorem test_port_latency :
    let p := edge (fun _ => 2) PortState.reset ⟨false, true, 0x10D728⟩
    let q := edge (fun _ => 2) p ⟨false, false, 0⟩
    p.cmdReady = false ∧ q.core = State.reset ∧ q.cmdReady = false ∧
      (edge (fun _ => 2) q ⟨false, false, 0⟩).core.vs = true := by decide

/-- Reset while a command is in progress discards it. -/
theorem test_port_reset_discards :
    let p := edge (fun _ => 2) PortState.reset ⟨false, true, 0x10D728⟩
    edge (fun _ => 2) p ⟨true, false, 0⟩ = PortState.reset := by decide

/-! ### Witnesses: for each obligation with hypotheses, a state and operands that meet all of them -/

theorem witness_DecodeOfEncodeGivesTheCommand :
    (Instr.rdk 2).wellFormed = true ∧ (Instr.gfn 1 0xFF).wellFormed = true ∧ (Instr.lds 0xFFFF).wellFormed = true := by
  decide

theorem witness_EncodeOfDecodeGivesTheWord : decode 0x420000#24 = .ok (.rdk 2) ∧ decode 0xC000FF#24 = .ok (.gfm 0xF 0xF) :=
  ⟨rfl, rfl⟩

theorem witness_OpcodeFRaisesIllegalOpcode :
    State.reset.flt = false ∧ (0xF12345#24).extractLsb' 20 4 = 0xF#4 ∧ (0xFFFFFF#24).extractLsb' 20 4 = 0xF#4 := by decide

/-- One word for each line of the condition, on either side of the index range. -/
theorem witness_ReservedFieldsRaiseReservedField :
    State.reset.flt = false ∧ reservedBits 0x000001 ∧ reservedBits 0x110000 ∧ reservedBits 0x430000 ∧
      ¬reservedBits 0x420000 ∧ reservedBits 0x920000 ∧ ¬reservedBits 0x910000 ∧ reservedBits 0xC00100 ∧
      reservedBits 0xD00010 ∧ reservedBits 0xE20000 ∧ reservedBits 0xE00100 ∧ ¬reservedBits 0xF00000 := by
  and_intros <;> first | rfl | (unfold reservedBits; decide)

theorem witness_StepRunsTheDecodedCommand :
    State.reset.input = [] ∧ ({ State.reset with input := [.reset] } : State).input = [.reset] ∧
      (State.reset.present 0x000000).input = [.command 0x000000] ∧ decode 0x000000#24 = .ok .nop ∧
      decode 0xF00000#24 = .error .illegalOpcode ∧ (State.reset.present 0xF00000).flt = false :=
  ⟨rfl, rfl, rfl, rfl, rfl, rfl⟩

theorem witness_ResetLeavesTheValuesOfTheTable :
    step { faultedCore with input := [.reset] } = .next State.reset := rfl

theorem witness_FaultEntryRecordsTheFirstCause :
    State.reset.flt = false ∧ causeFor 0xF00000 State.reset = .illegalOpcode ∧
      causeFor 0x300001 State.reset = .reservedField ∧ causeFor 0x300000 State.reset = .invalidSource ∧
      causeFor 0x000000 State.reset = .noFault ∧
      causeFor 0x300000 (coreWith (some 0) none none none none) = .noFault := by decide

theorem witness_FaultedCoreIgnoresEveryCommand : faultedCore.flt = true := rfl

theorem witness_OnlyResetLeavesTheFaultedState :
    faultedCore.flt = true ∧ step { faultedCore with input := [.reset] } = .next State.reset ∧
      step (faultedCore.present 0x10D728) = .next faultedCore := ⟨rfl, rfl, rfl⟩

/-- The keys of R26, whatever the machine's ROMs are. -/
theorem witness_StepKeepsTheKeysCoherent (q : Matrix) :
    let q1 := expandKey theRoms q .first
    let s : State := { State.reset with k0 := some q, k1 := some q1, k2 := some (expandKey theRoms q1 .second) }
    KeysCoherent theRoms s ∧ step (s.present 0x900000) = .next s := by
  refine ⟨⟨fun _ h => ⟨q, rfl, ?_⟩, fun _ h => ⟨_, rfl, ?_⟩⟩, rfl⟩ <;> exact (Option.some.inj h).symm

theorem witness_StepKeepsTheFaultRecordCoherent :
    FaultRecordCoherent State.reset ∧ FaultRecordCoherent faultedCore ∧
      step (State.reset.present 0x300000) = .next faultedCore := by
  refine ⟨?_, ?_, rfl⟩ <;> simp only [FaultRecordCoherent] <;> decide

theorem witness_ValidBitsAreSetAndClearedByTheTable :
    (exec (.ldk 0x4AF5) (textbookKeys none none) = .next (coreWith none (some 0x4AF5) none none none) ∧
        (textbookKeys none none).flt = false ∧ (coreWith none (some 0x4AF5) none none none).flt = false) ∧
      (accept 0x300000 State.reset = .next faultedCore ∧ faultedCore.flt = true) ∧
      step { faultedCore with input := [.reset] } = .next State.reset := ⟨⟨rfl, rfl, rfl⟩, ⟨rfl, rfl⟩, rfl⟩

/-- With an effect, with a fault, and ignored. -/
theorem witness_OnlyTheListedCommandsChangeARegister :
    exec (.lds 0x1234) State.reset = .next (coreWith (some 0x1234) none none none none) ∧
      exec .rds State.reset = .next faultedCore ∧ exec .rds faultedCore = .next faultedCore := ⟨rfl, rfl, rfl⟩

theorem witness_NoCommandReadsDout :
    exec .shr (coreWith (some 0x1234) none none none (some 7)) =
      .next (coreWith (some 0x1432) none none none (some 7)) := rfl

theorem witness_loads : State.reset.flt = false := rfl

/-- The register read holds a value, and does not. -/
theorem witness_RdsReadsTheState :
    (coreWith (some 0xFFFF) none none none none).flt = false ∧
      (coreWith (some 0xFFFF) none none none none).s = some ⟨0xF, 0xF, 0xF, 0xF⟩ ∧ State.reset.s = none := by decide

theorem witness_RdkReadsARoundKey :
    (textbookKeys none none).flt = false ∧ (textbookKeys none none).k0 = some ⟨4, 0xA, 0xF, 5⟩ ∧
      (textbookKeys none none).k1 = some ⟨0xD, 0xD, 2, 8⟩ ∧ (textbookKeys none none).k2 = some ⟨8, 7, 0xA, 0xF⟩ ∧
      State.reset.k0 = none ∧ State.reset.k1 = none ∧ State.reset.k2 = none := by decide

/-- Each key index; then S empty alone and the key empty alone. -/
theorem witness_ArkAddsARoundKey :
    (textbookKeys (some 0) none).flt = false ∧ (textbookKeys (some 0) none).s = some ⟨0, 0, 0, 0⟩ ∧
      (textbookKeys (some 0) none).key .k0 = some ⟨4, 0xA, 0xF, 5⟩ ∧
      (textbookKeys (some 0) none).key .k1 = some ⟨0xD, 0xD, 2, 8⟩ ∧
      (textbookKeys (some 0) none).key .k2 = some ⟨8, 7, 0xA, 0xF⟩ ∧ (textbookKeys none none).s = none ∧
      (coreWith (some 0) none none none none).key .k2 = none := by decide

/-- Of SUB, SHR and MIX: S holds a value, and does not. -/
theorem witness_transforms :
    (coreWith (some 0x9DDD) none none none none).flt = false ∧
      (coreWith (some 0x9DDD) none none none none).s = some ⟨9, 0xD, 0xD, 0xD⟩ ∧ State.reset.flt = false ∧
      State.reset.s = none := by decide

/-- Of KEXP and KSCH: the source key holds a value, and does not. -/
theorem witness_schedule :
    (textbookKeys none none).flt = false ∧ (textbookKeys none none).k0 = some ⟨4, 0xA, 0xF, 5⟩ ∧
      (textbookKeys none none).k1 = some ⟨0xD, 0xD, 2, 8⟩ ∧ State.reset.flt = false ∧ State.reset.k0 = none ∧
      State.reset.k1 = none := by decide

/-- Every register ENC reads holds a value; then each of the four is empty alone. -/
theorem witness_EncEncryptsTheState :
    (textbookKeys (some 0xD728) none).flt = false ∧ (textbookKeys (some 0xD728) none).s = some ⟨0xD, 7, 2, 8⟩ ∧
      (textbookKeys (some 0xD728) none).k0 = some ⟨4, 0xA, 0xF, 5⟩ ∧
      (textbookKeys (some 0xD728) none).k1 = some ⟨0xD, 0xD, 2, 8⟩ ∧
      (textbookKeys (some 0xD728) none).k2 = some ⟨8, 7, 0xA, 0xF⟩ ∧ (textbookKeys none none).s = none ∧
      (coreWith (some 1) none (some 1) (some 1) none).k0 = none ∧
      (coreWith (some 1) (some 1) none (some 1) none).k1 = none ∧
      (coreWith (some 1) (some 1) (some 1) none none).k2 = none := by decide

theorem witness_ExpandKeyOnBytes :
    (0x4A#8 = (stateToInt (intToState 0x4AF5)).extractLsb' 8 8 ∧
      0xF5#8 = (stateToInt (intToState 0x4AF5)).extractLsb' 0 8 ∧
      0x80#8 = (textbookRoms.rcon .first).n0 ++ (textbookRoms.rcon .first).n1) := by decide

/-- Of the agreement of ENC with the nine commands. The trace hook has the registers of ENC's own witness, and the agreement of
KSCH with the two KEXPs those of `witness_schedule`. -/
theorem witness_agreements :
    (textbookKeys (some 0xD728) none).flt = false ∧ (textbookKeys (some 0xD728) none).vs = true ∧
      (textbookKeys (some 0xD728) none).vk0 = true ∧ (textbookKeys (some 0xD728) none).vk1 = true ∧
      (textbookKeys (some 0xD728) none).vk2 = true := by decide

/-- A command that fills a register, and a new key, which empties round key 1. -/
theorem witness_StepKeepsTheHistoryCoherent :
    HistoryCoherent [] State.reset ∧
      step (State.reset.present (encode (.ldk 0x4AF5))) = .next (coreWith none (some 0x4AF5) none none none) ∧
      HistoryCoherent [.ldk 0x4AF5, .kexp 0] (coreWith none (some 0x4AF5) (some 0xDD28) none none) ∧
      step ((coreWith none (some 0x4AF5) (some 0xDD28) none none).present (encode (.ldk 0))) =
        .next (coreWith none (some 0) none none none) := by
  refine ⟨?_, rfl, ?_, rfl⟩ <;> (unfold HistoryCoherent; decide)

/-- A need that is met, and one that is not because a new key came after the expansion. -/
theorem witness_CommandFaultsExactlyWithoutItsNeeds :
    (∀ j ∈ [Instr.ldk 0x4AF5], j.wellFormed = true) ∧ (Instr.kexp 0).wellFormed = true ∧
      runEvents (sends [.ldk 0x4AF5]) State.reset = .next (coreWith none (some 0x4AF5) none none none) ∧
      (coreWith none (some 0x4AF5) none none none).flt = false ∧ needsMet [.ldk 0x4AF5] (.kexp 0) = true ∧
      needsMet [.ldk 0x4AF5] (.kexp 1) = false ∧ needsMet [.ldk 1, .ksch, .ldk 2] (.rdk 1) = false ∧
      needsMet [.ldk 1, .kexp 0, .nop, .kexp 1, .lds 0] .enc = true :=
  ⟨by decide, rfl, rfl, rfl, rfl, rfl, rfl, rfl⟩

theorem witness_DisciplinedHostNeverCausesAFault :
    disciplined [] [.ldk 0x4AF5, .kexp 0, .kexp 1, .lds 0xD728, .enc, .rds, .ark 2, .ldk 1, .rdk 0] = true ∧
      disciplined [] [.ldk 0x4AF5, .kexp 1] = false := by decide

theorem witness_AcceptedCommandCompletesAfterItsLatency :
    let x : Pins := ⟨false, true, 0x10D728⟩
    let lat : BitVec 4 → Nat := fun _ => 3
    accepts PortState.reset x = true ∧ PortState.reset.core.flt = false ∧ lat (opField x.cmd) = 2 + 1 ∧
      [x, x].length = 2 ∧ (∀ z ∈ [x, x], z.rst = false) ∧ x.rst = false := by decide

theorem witness_TextBlockIsTwoCharacters :
    'O'.toNat ≤ 255 ∧ (Char.ofNat 255).toNat ≤ 255 ∧ 255 < (Char.ofNat 256).toNat ∧ ['O'].length ≠ 2 ∧ ([] : List Char).length ≠ 2 := by decide

theorem witness_KeyOutOfRangeIsRefused :
    ((-1 : Int) < 0 ∨ 65535 < (-1 : Int)) ∧ ((65536 : Int) < 0 ∨ 65535 < (65536 : Int)) := by
  decide

theorem witness_EcbLengthLaw :
    codesAccepted ['H', 'I', 'J'] ∧ (0 : Int) ≤ 65535 ∧ (65535 : Int) ≤ 65535 := by
  refine ⟨fun c hc => ?_, by decide, by decide⟩
  simp only [List.mem_cons, List.not_mem_nil, or_false] at hc
  rcases hc with rfl | rfl | rfl <;> decide

theorem witness_PadIsIndistinguishableFromNul : ['A'].length % 2 = 1 := rfl

theorem witness_EcbBlocksAreIndependent : ['O', 'K'].length % 2 = 0 := rfl

theorem witness_AssemblerEmitsOnlyLegalWords :
    assembleProgram [['N', 'O', 'P'], ['A', 'R', 'K', ' ', '2']] = .ok [0x000000, 0x520000] := rfl

end Sys2Proof.Tests
end

/-! PROOFS, state family. What one accepted word and one step can do, and the state's obligations derived from it. -/

namespace Sys2Proof.Machine

variable {i : Instr} {w : Command} {s t : State}

/-! ### Decoding answers well-formed commands, and their words -/

theorem ite_ok_eq_ok_iff {ε α : Type} {c : Prop} [Decidable c] {e : ε} {a b : α} :
    (if c then Except.ok a else Except.error e) = Except.ok b ↔ c ∧ a = b := by
  split <;> simp_all

/-- A byte below a zero byte is the immediate again. -/
theorem zero_append_lowByte {imm : Block} (h : imm.extractLsb' 8 8 = 0#8) : 0#8 ++ imm.extractLsb' 0 8 = imm := by
  rw [← h]
  exact BitVec.extractLsb'_append_extractLsb'_eq_extractLsb' rfl |>.trans BitVec.extractLsb'_eq_self

theorem zero_append_lowNibble {imm : Block} (h : imm.extractLsb' 4 12 = 0#12) :
    0#12 ++ imm.extractLsb' 0 4 = imm := by
  rw [← h]
  exact BitVec.extractLsb'_append_extractLsb'_eq_extractLsb' rfl |>.trans BitVec.extractLsb'_eq_self

theorem zero_append_lowNibbles {imm : Block} (h : imm.extractLsb' 8 8 = 0#8) :
    0#8 ++ imm.extractLsb' 4 4 ++ imm.extractLsb' 0 4 = imm := by
  rw [← h, BitVec.extractLsb'_append_extractLsb'_eq_extractLsb' (show 8 = 4 + 4 from rfl)]
  exact BitVec.extractLsb'_append_extractLsb'_eq_extractLsb' rfl |>.trans BitVec.extractLsb'_eq_self

theorem opcode_cases : ∀ op : BitVec 4,
    op = 0x0#4 ∨ op = 0x1#4 ∨ op = 0x2#4 ∨ op = 0x3#4 ∨ op = 0x4#4 ∨ op = 0x5#4 ∨ op = 0x6#4 ∨ op = 0x7#4 ∨
      op = 0x8#4 ∨ op = 0x9#4 ∨ op = 0xA#4 ∨ op = 0xB#4 ∨ op = 0xC#4 ∨ op = 0xD#4 ∨ op = 0xE#4 ∨ op = 0xF#4 := by
  decide

/-- A word that decodes is the word of its command, and the command is well formed (R73, R75): opcode by opcode. -/
theorem encode_of_decode : ∀ w : Command, ∀ i, decode w = .ok i → encode i = w ∧ i.wellFormed = true := by
  rw [forall_command_iff_fields]
  intro op idx imm i h
  rcases opcode_cases op with
    rfl | rfl | rfl | rfl | rfl | rfl | rfl | rfl | rfl | rfl | rfl | rfl | rfl | rfl | rfl | rfl
  · obtain ⟨⟨rfl, rfl⟩, rfl⟩ := ite_ok_eq_ok_iff.1 (decode_fields_nop idx imm ▸ h)
    exact ⟨rfl, rfl⟩
  · obtain ⟨rfl, rfl⟩ := ite_ok_eq_ok_iff.1 (decode_fields_lds idx imm ▸ h)
    exact ⟨rfl, rfl⟩
  · obtain ⟨rfl, rfl⟩ := ite_ok_eq_ok_iff.1 (decode_fields_ldk idx imm ▸ h)
    exact ⟨rfl, rfl⟩
  · obtain ⟨⟨rfl, rfl⟩, rfl⟩ := ite_ok_eq_ok_iff.1 (decode_fields_rds idx imm ▸ h)
    exact ⟨rfl, rfl⟩
  · obtain ⟨⟨hidx, rfl⟩, rfl⟩ := ite_ok_eq_ok_iff.1 (decode_fields_rdk idx imm ▸ h)
    exact ⟨rfl, decide_eq_true hidx⟩
  · obtain ⟨⟨hidx, rfl⟩, rfl⟩ := ite_ok_eq_ok_iff.1 (decode_fields_ark idx imm ▸ h)
    exact ⟨rfl, decide_eq_true hidx⟩
  · obtain ⟨⟨rfl, rfl⟩, rfl⟩ := ite_ok_eq_ok_iff.1 (decode_fields_sub idx imm ▸ h)
    exact ⟨rfl, rfl⟩
  · obtain ⟨⟨rfl, rfl⟩, rfl⟩ := ite_ok_eq_ok_iff.1 (decode_fields_shr idx imm ▸ h)
    exact ⟨rfl, rfl⟩
  · obtain ⟨⟨rfl, rfl⟩, rfl⟩ := ite_ok_eq_ok_iff.1 (decode_fields_mix idx imm ▸ h)
    exact ⟨rfl, rfl⟩
  · obtain ⟨⟨hidx, rfl⟩, rfl⟩ := ite_ok_eq_ok_iff.1 (decode_fields_kexp idx imm ▸ h)
    exact ⟨rfl, decide_eq_true hidx⟩
  · obtain ⟨⟨rfl, rfl⟩, rfl⟩ := ite_ok_eq_ok_iff.1 (decode_fields_ksch idx imm ▸ h)
    exact ⟨rfl, rfl⟩
  · obtain ⟨⟨rfl, rfl⟩, rfl⟩ := ite_ok_eq_ok_iff.1 (decode_fields_enc idx imm ▸ h)
    exact ⟨rfl, rfl⟩
  · obtain ⟨⟨rfl, himm⟩, rfl⟩ := ite_ok_eq_ok_iff.1 (decode_fields_gfm idx imm ▸ h)
    exact ⟨congrArg (assembleFields _ _) (zero_append_lowNibbles himm), rfl⟩
  · obtain ⟨⟨rfl, himm⟩, rfl⟩ := ite_ok_eq_ok_iff.1 (decode_fields_sbx idx imm ▸ h)
    exact ⟨congrArg (assembleFields _ _) (zero_append_lowNibble himm), rfl⟩
  · obtain ⟨⟨hidx, himm⟩, rfl⟩ := ite_ok_eq_ok_iff.1 (decode_fields_gfn idx imm ▸ h)
    exact ⟨congrArg (assembleFields _ _) (zero_append_lowByte himm), decide_eq_true hidx⟩
  · exact absurd (decode_fields_reserved idx imm ▸ h) (by simp)

/-! ### A well-formed command faults exactly when a register it reads is empty -/

theorem exists_keyIndexOf {k : BitVec 4} (h : k.toNat ≤ 2) : ∃ ki, keyIndexOf k = some ki :=
  Option.ne_none_iff_exists'.1 fun hn => by rw [keyIndexOf_eq_none_iff] at hn; omega

theorem exists_roundOf {r : BitVec 4} (h : r.toNat ≤ 1) : ∃ ri, roundOf r = some ri :=
  Option.ne_none_iff_exists'.1 fun hn => by rw [roundOf_eq_none_iff] at hn; omega

/-- A running CORE whose registers cannot serve a well-formed command takes the fault INVALID_SOURCE (R234). -/
theorem exec_of_source_missing (hf : s.flt = false) (hwf : i.wellFormed = true) (hs : sourcesValid i s = false) :
    exec i s = .next (s.takeFault .invalidSource (encode i)) := by
  cases i with
  | nop | lds _ | ldk _ | gfm _ _ | sbx _ | gfn _ _ => simp [sourcesValid] at hs
  | rds => simp_all [exec, execRds, sourcesValid, State.vs]
  | sub => simp_all [exec, execSub, subCommand, sourcesValid, State.vs]
  | shr => simp_all [exec, execShr, sourcesValid, State.vs]
  | mix => simp_all [exec, execMix, sourcesValid, State.vs]
  | ksch => simp_all [exec, execKsch, kschCommand, sourcesValid, State.vk0]
  | rdk k =>
    obtain ⟨ki, hk⟩ := exists_keyIndexOf (of_decide_eq_true hwf)
    simp_all [exec, execRdk, sourcesValid]
  | kexp r =>
    obtain ⟨ri, hr⟩ := exists_roundOf (of_decide_eq_true hwf)
    simp_all [exec, execKexp, kexpCommand, sourcesValid]
  | ark k =>
    obtain ⟨ki, hk⟩ := exists_keyIndexOf (of_decide_eq_true hwf)
    cases hm : s.s <;> simp_all [exec, execArk, sourcesValid, State.vs]
  | enc =>
    rcases hm : s.s with _ | p
    · simp [exec, execEnc, encCommand, hf, hm]
    rcases h0 : s.k0 with _ | q0
    · simp [exec, execEnc, encCommand, hf, hm, h0]
    rcases h1 : s.k1 with _ | q1
    · simp [exec, execEnc, encCommand, hf, hm, h0, h1]
    have h2 : s.k2 = none := by simpa [sourcesValid, State.vs, State.vk0, State.vk1, State.vk2, hm, h0, h1] using hs
    simp [exec, execEnc, encCommand, hf, hm, h0, h1, h2]

/-- A running CORE whose registers serve a well-formed command carries it out. -/
theorem exec_of_sources_valid (hf : s.flt = false) (hwf : i.wellFormed = true) (hs : sourcesValid i s = true) :
    ∃ t, exec i s = .next t ∧ Effect i s t := by
  cases i with
  | nop => exact ⟨s, by simp [exec, execNop, hf], rfl⟩
  | lds x => exact ⟨_, unlessFaulted_of_running hf _, rfl⟩
  | ldk x => exact ⟨_, unlessFaulted_of_running hf _, rfl⟩
  | gfm a b => exact ⟨_, unlessFaulted_of_running hf _, rfl⟩
  | sbx a => exact ⟨_, unlessFaulted_of_running hf _, rfl⟩
  | gfn r w =>
    obtain ⟨ri, hr⟩ := exists_roundOf (of_decide_eq_true hwf)
    simp [exec, execGfn, gfnCommand, Effect, hf, hr]
  | rds =>
    obtain ⟨m, hm⟩ := Option.isSome_iff_exists.1 hs
    simp [exec, execRds, Effect, hf, hm]
  | sub =>
    obtain ⟨m, hm⟩ := Option.isSome_iff_exists.1 hs
    simp [exec, execSub, subCommand, Effect, hf, hm]
  | shr =>
    obtain ⟨m, hm⟩ := Option.isSome_iff_exists.1 hs
    simp [exec, execShr, Effect, hf, hm]
  | mix =>
    obtain ⟨m, hm⟩ := Option.isSome_iff_exists.1 hs
    simp [exec, execMix, Effect, hf, hm]
  | ksch =>
    obtain ⟨q, hq⟩ := Option.isSome_iff_exists.1 hs
    simp [exec, execKsch, kschCommand, Effect, hf, hq]
  | rdk k =>
    obtain ⟨ki, hk⟩ := exists_keyIndexOf (of_decide_eq_true hwf)
    obtain ⟨q, hq⟩ : ∃ q, s.key ki = some q := by simpa [sourcesValid, hk, Option.isSome_iff_exists] using hs
    simp [exec, execRdk, Effect, hf, hk, hq]
  | kexp r =>
    obtain ⟨ri, hr⟩ := exists_roundOf (of_decide_eq_true hwf)
    obtain ⟨q, hq⟩ : ∃ q, s.key (sourceKey ri) = some q := by
      simpa [sourcesValid, hr, Option.isSome_iff_exists] using hs
    simp [exec, execKexp, kexpCommand, Effect, hf, hr, hq]
  | ark k =>
    obtain ⟨ki, hk⟩ := exists_keyIndexOf (of_decide_eq_true hwf)
    obtain ⟨⟨m, hm⟩, q, hq⟩ : (∃ m, s.s = some m) ∧ ∃ q, s.key ki = some q := by
      simpa [sourcesValid, State.vs, hk, Option.isSome_iff_exists] using hs
    simp [exec, execArk, Effect, hf, hk, hm, hq]
  | enc =>
    obtain ⟨⟨⟨⟨p, hp⟩, q0, h0⟩, q1, h1⟩, q2, h2⟩ :
        (((∃ p, s.s = some p) ∧ ∃ q, s.k0 = some q) ∧ ∃ q, s.k1 = some q) ∧ ∃ q, s.k2 = some q := by
      simpa [sourcesValid, State.vs, State.vk0, State.vk1, State.vk2, Option.isSome_iff_exists] using hs
    simp [exec, execEnc, encCommand, Effect, hf, hp, h0, h1, h2]

/-! ### Everything an accepted word and a step can do -/

theorem accept_of_faulted (hf : s.flt = true) (w : Command) : accept w s = .next s := by
  cases hd : decode w with
  | ok i => rw [accept_of_decode_ok hd, exec_of_faulted hf]
  | error d => rw [accept_of_decode_error hd, acceptIllegal, unlessFaulted_of_faulted hf]

theorem commit_of_faulted (hf : s.flt = true) (w : Command) : commit w s = s :=
  next_inj.1 ((accept_of_faulted hf w).symm.trans (accept_eq_commit w s))

theorem causeFor_of_decode_error {d : DecodeFault} (hd : decode w = .error d) (s : State) :
    causeFor w s = causeOfDecode d := by
  cases d <;> simp [causeFor, hd, causeOfDecode]

theorem causeFor_of_decode_ok (hd : decode w = .ok i) (s : State) :
    causeFor w s = if sourcesValid i s then .noFault else .invalidSource := by
  simp [causeFor, hd]

theorem causeOfDecode_ne_noFault (d : DecodeFault) : causeOfDecode d ≠ .noFault := by
  cases d <;> simp [causeOfDecode]

/-- An accepted word is ignored in the faulted CORE, or takes the fault of its own cause, or decodes to a command that has
its effect (R233, R235, R238). -/
theorem accept_next_cases (h : accept w s = .next t) :
    (s.flt = true ∧ t = s) ∨
      (s.flt = false ∧ causeFor w s ≠ .noFault ∧ t = s.takeFault (causeFor w s) w) ∨
        (s.flt = false ∧ causeFor w s = .noFault ∧ ∃ i, decode w = .ok i ∧ Effect i s t) := by
  cases hf : s.flt with
  | true => exact .inl ⟨rfl, next_inj.1 ((accept_of_faulted hf w).symm.trans h)⟩
  | false =>
    cases hd : decode w with
    | error d =>
      rw [accept_of_decode_error hd, acceptIllegal_eq_next] at h
      have ht : t = s.takeFault (causeOfDecode d) w := by simpa [hf] using h
      refine .inr (.inl ⟨rfl, ?_⟩)
      rw [causeFor_of_decode_error hd]
      exact ⟨causeOfDecode_ne_noFault d, ht⟩
    | ok i =>
      obtain ⟨hw, hwf⟩ := encode_of_decode w i hd
      rw [accept_of_decode_ok hd] at h
      rw [causeFor_of_decode_ok hd]
      cases hs : sourcesValid i s with
      | false =>
        rw [exec_of_source_missing hf hwf hs, next_inj, hw] at h
        simp [h]
      | true =>
        obtain ⟨u, hu, heff⟩ := exec_of_sources_valid hf hwf hs
        obtain rfl : t = u := next_inj.1 (hu.symm.trans h)
        simp [heff]

/-- A step does nothing, or resets, or accepts the word presented next. -/
theorem step_next_cases (h : step s = .next t) :
    t = s ∨ (∃ rest, s.input = .reset :: rest ∧ t = { State.reset with input := rest }) ∨
      ∃ w rest, s.input = .command w :: rest ∧ accept w { s with input := rest } = .next t := by
  rcases takeEvent_cases s with ⟨-, he⟩ | ⟨rest, hin, -⟩ | ⟨w, rest, hin, -⟩
  · exact .inl (next_inj.1 (by rwa [step, he] at h))
  · exact .inr (.inl ⟨rest, hin, next_inj.1 ((step_of_reset hin).symm.trans h)⟩)
  · exact .inr (.inr ⟨w, rest, hin, (step_of_command hin).symm.trans h⟩)

/-- What holds at reset, does not speak of the host's input and is kept by every accepted word, every step keeps. -/
theorem step_keeps {P : State → Prop} (hinput : ∀ s es, P s → P { s with input := es }) (hreset : P State.reset)
    (haccept : ∀ w s t, P s → accept w s = .next t → P t) (hP : P s) (h : step s = .next t) : P t := by
  rcases step_next_cases h with rfl | ⟨rest, -, rfl⟩ | ⟨w, rest, -, ha⟩
  · exact hP
  · exact hinput _ rest hreset
  · exact haccept w _ t (hinput s rest hP) ha

/-! ### What an effect leaves unchanged -/

/-- Each data register of `t` holds what it held in `s` unless `i` is listed as changing it (R28). -/
def KeepsUnlisted (i : Instr) (s t : State) : Prop :=
  (t.s = s.s ∨ (∃ x, i = .lds x) ∨ (∃ k, i = .ark k) ∨ i = .sub ∨ i = .shr ∨ i = .mix ∨ i = .enc) ∧
    (t.k0 = s.k0 ∨ ∃ x, i = .ldk x) ∧
    (t.k1 = s.k1 ∨ (∃ x, i = .ldk x) ∨ i = .kexp 0#4 ∨ i = .ksch) ∧
    (t.k2 = s.k2 ∨ (∃ x, i = .ldk x) ∨ i = .kexp 1#4 ∨ i = .ksch) ∧
    (t.dout = s.dout ∨ i = .rds ∨ (∃ k, i = .rdk k) ∨ i = .enc ∨ (∃ a b, i = .gfm a b) ∨
      (∃ a, i = .sbx a) ∨ ∃ r w, i = .gfn r w)

theorem keepsUnlisted_refl (i : Instr) (s : State) : KeepsUnlisted i s s :=
  ⟨.inl rfl, .inl rfl, .inl rfl, .inl rfl, .inl rfl⟩

theorem Effect.keepsUnlisted (h : Effect i s t) : KeepsUnlisted i s t := by
  unfold KeepsUnlisted
  cases i with
  | nop | lds _ | ldk _ | gfm _ _ | sbx _ => subst h; simp
  | rds | sub | shr | mix => obtain ⟨m, -, rfl⟩ := h; simp
  | gfn r w => obtain ⟨ri, -, rfl⟩ := h; simp
  | rdk k => obtain ⟨ki, q, -, -, rfl⟩ := h; simp
  | ark k => obtain ⟨ki, m, q, -, -, -, rfl⟩ := h; simp
  | ksch => obtain ⟨q, -, rfl⟩ := h; simp
  | enc => obtain ⟨p, q0, q1, q2, -, -, -, -, rfl⟩ := h; simp
  | kexp r =>
    obtain ⟨ri, q, hr, -, rfl⟩ := h
    obtain rfl := (roundOf_eq_some_iff r ri).1 hr
    cases ri <;> simp [targetKey, roundField]

/-- No effect touches the fault registers or the host's input. -/
theorem Effect.faultRegisters (h : Effect i s t) :
    t.flt = s.flt ∧ t.cause = s.cause ∧ t.fcmd = s.fcmd ∧ t.input = s.input := by
  cases i with
  | nop | lds _ | ldk _ | gfm _ _ | sbx _ => subst h; simp
  | rds | sub | shr | mix | ksch => obtain ⟨m, -, rfl⟩ := h; simp
  | gfn r w => obtain ⟨ri, -, rfl⟩ := h; simp
  | rdk k => obtain ⟨ki, q, -, -, rfl⟩ := h; simp
  | ark k => obtain ⟨ki, m, q, -, -, -, rfl⟩ := h; simp
  | enc => obtain ⟨p, q0, q1, q2, -, -, -, -, rfl⟩ := h; simp
  | kexp r => obtain ⟨ri, q, -, -, rfl⟩ := h; simp

/-- What an effect does to the key registers: nothing, an `LDK`, one expansion step, or both. -/
theorem Effect.keys (h : Effect i s t) :
    (t.k0 = s.k0 ∧ t.k1 = s.k1 ∧ t.k2 = s.k2) ∨ (t.k1 = none ∧ t.k2 = none) ∨
      (∃ ri q, s.key (sourceKey ri) = some q ∧ t = s.writeKey (targetKey ri) (expandKey theRoms q ri)) ∨
        ∃ q, s.k0 = some q ∧ t = (s.writeKey .k1 (expandKey theRoms q .first)).writeKey .k2
          (expandKey theRoms (expandKey theRoms q .first) .second) := by
  cases i with
  | nop | lds _ | gfm _ _ | sbx _ => subst h; exact .inl ⟨rfl, rfl, rfl⟩
  | rds | sub | shr | mix => obtain ⟨m, -, rfl⟩ := h; exact .inl ⟨rfl, rfl, rfl⟩
  | gfn r w => obtain ⟨ri, -, rfl⟩ := h; exact .inl ⟨rfl, rfl, rfl⟩
  | rdk k => obtain ⟨ki, q, -, -, rfl⟩ := h; exact .inl ⟨rfl, rfl, rfl⟩
  | ark k => obtain ⟨ki, m, q, -, -, -, rfl⟩ := h; exact .inl ⟨rfl, rfl, rfl⟩
  | enc => obtain ⟨p, q0, q1, q2, -, -, -, -, rfl⟩ := h; exact .inl ⟨rfl, rfl, rfl⟩
  | ldk x => subst h; exact .inr (.inl ⟨rfl, rfl⟩)
  | kexp r => obtain ⟨ri, q, -, hq, rfl⟩ := h; exact .inr (.inr (.inl ⟨ri, q, hq, rfl⟩))
  | ksch => exact .inr (.inr (.inr h))

/-- The table of R25 for one effect. -/
theorem Effect.validBits (h : Effect i s t) :
    (t.vs = true ↔ s.vs = true ∨ ∃ x, i = .lds x) ∧
      (t.vk0 = true ↔ s.vk0 = true ∨ ∃ x, i = .ldk x) ∧
      (t.vk1 = true ↔ (s.vk1 = true ∧ ¬∃ x, i = .ldk x) ∨ i = .kexp 0#4 ∨ i = .ksch) ∧
      (t.vk2 = true ↔ (s.vk2 = true ∧ ¬∃ x, i = .ldk x) ∨ i = .kexp 1#4 ∨ i = .ksch) ∧
      (t.vd = true ↔ s.vd = true ∨ i = .rds ∨ (∃ k, i = .rdk k) ∨ i = .enc ∨ (∃ a b, i = .gfm a b) ∨
        (∃ a, i = .sbx a) ∨ ∃ r w, i = .gfn r w) := by
  simp only [State.vs, State.vk0, State.vk1, State.vk2, State.vd]
  cases i with
  | nop | lds _ | ldk _ | gfm _ _ | sbx _ => subst h; simp
  | rds | sub | shr | mix | ksch => obtain ⟨m, hm, rfl⟩ := h; simp [hm]
  | gfn r w => obtain ⟨ri, -, rfl⟩ := h; simp
  | rdk k => obtain ⟨ki, q, -, -, rfl⟩ := h; simp
  | ark k => obtain ⟨ki, m, q, -, hm, -, rfl⟩ := h; simp [hm]
  | enc => obtain ⟨p, q0, q1, q2, hp, -, -, -, rfl⟩ := h; simp [hp]
  | kexp r =>
    obtain ⟨ri, q, hr, hq, rfl⟩ := h
    obtain rfl := (roundOf_eq_some_iff r ri).1 hr
    cases ri <;> simp [targetKey, roundField]

theorem accept_input (h : accept w s = .next t) : t.input = s.input := by
  rcases accept_next_cases h with ⟨-, rfl⟩ | ⟨-, -, rfl⟩ | ⟨-, -, i, -, heff⟩
  · rfl
  · rfl
  · exact heff.faultRegisters.2.2.2

@[simp] theorem commit_input (w : Command) (s : State) : (commit w s).input = s.input :=
  accept_input (accept_eq_commit w s)

end Sys2Proof.Machine

/-! ### Valid round keys -/

namespace Sys2Proof.Machine
open Sys2Proof.Claims

variable {i : Instr} {w : Command} {s t : State} {roms : Roms}

/-- Only the key registers matter for R26. -/
theorem keysCoherent_congr (h0 : t.k0 = s.k0) (h1 : t.k1 = s.k1) (h2 : t.k2 = s.k2) (h : KeysCoherent roms s) :
    KeysCoherent roms t := by
  simpa only [KeysCoherent, h0, h1, h2] using h

theorem keysCoherent_of_no_roundKeys (h1 : s.k1 = none) (h2 : s.k2 = none) : KeysCoherent roms s := by
  simp [KeysCoherent, h1, h2]

/-- A new round key 1 is the old one wherever a round key 2 was made from it. -/
theorem keysCoherent_writeKey_k1 {q : Matrix} (hq : s.k0 = some q) (h : KeysCoherent roms s) :
    KeysCoherent roms (s.writeKey .k1 (expandKey roms q .first)) := by
  obtain ⟨hfirst, hsecond⟩ := h
  refine ⟨fun q1 h1 => ⟨q, hq, (Option.some.inj h1).symm⟩, fun q2 h2 => ⟨_, rfl, ?_⟩⟩
  obtain ⟨q1, h1, rfl⟩ := hsecond q2 h2
  obtain ⟨q0, h0, rfl⟩ := hfirst q1 h1
  obtain rfl : q0 = q := Option.some.inj (h0.symm.trans hq)
  rfl

theorem keysCoherent_writeKey_k2 {q : Matrix} (hq : s.k1 = some q) (h : KeysCoherent roms s) :
    KeysCoherent roms (s.writeKey .k2 (expandKey roms q .second)) :=
  ⟨h.1, fun _ h2 => ⟨q, hq, (Option.some.inj h2).symm⟩⟩

theorem Effect.keysCoherent (heff : Effect i s t) (h : KeysCoherent theRoms s) : KeysCoherent theRoms t := by
  rcases heff.keys with ⟨h0, h1, h2⟩ | ⟨h1, h2⟩ | ⟨ri, q, hq, rfl⟩ | ⟨q, hq, rfl⟩
  · exact keysCoherent_congr h0 h1 h2 h
  · exact keysCoherent_of_no_roundKeys h1 h2
  · cases ri with
    | first => exact keysCoherent_writeKey_k1 hq h
    | second => exact keysCoherent_writeKey_k2 hq h
  · exact keysCoherent_writeKey_k2 rfl (keysCoherent_writeKey_k1 hq h)

theorem accept_keepsKeysCoherent (h : KeysCoherent theRoms s) (ha : accept w s = .next t) :
    KeysCoherent theRoms t := by
  rcases accept_next_cases ha with ⟨-, rfl⟩ | ⟨-, -, rfl⟩ | ⟨-, -, i, -, heff⟩
  · exact h
  · exact keysCoherent_congr rfl rfl rfl h
  · exact heff.keysCoherent h

theorem keysCoherent_reset : KeysCoherent roms State.reset := keysCoherent_of_no_roundKeys rfl rfl

/-- Settles O14: an effect writes a round key only as the expansion of the key before it. -/
theorem stepKeepsTheKeysCoherent : Obligations.StepKeepsTheKeysCoherent := by
  unfold Obligations.StepKeepsTheKeysCoherent
  intro s t
  exact step_keeps (fun _ _ h => h) keysCoherent_reset (fun _ _ _ => accept_keepsKeysCoherent)

/-! ### The fault record -/

/-- The cause of a word depends on the data registers alone. -/
theorem causeFor_congr (hs : t.s = s.s) (h0 : t.k0 = s.k0) (h1 : t.k1 = s.k1) (h2 : t.k2 = s.k2) (w : Command) :
    causeFor w t = causeFor w s := by
  have hkey (k : KeyIndex) : t.key k = s.key k := by cases k <;> assumption
  have hsources (i : Instr) : sourcesValid i t = sourcesValid i s := by
    cases i <;> simp only [sourcesValid, State.vs, State.vk0, State.vk1, State.vk2, hs, h0, h1, h2, hkey]
  simp only [causeFor, hsources]

theorem faultRecordCoherent_of_running (hf : s.flt = false) :
    FaultRecordCoherent s ↔ s.cause = .noFault ∧ s.fcmd = 0#24 := by
  simp [FaultRecordCoherent, hf]

theorem faultRecordCoherent_takeFault (h : causeFor w s ≠ .noFault) :
    FaultRecordCoherent (s.takeFault (causeFor w s) w) :=
  ⟨h, causeFor_congr rfl rfl rfl rfl w⟩

theorem accept_keepsFaultRecordCoherent (h : FaultRecordCoherent s) (ha : accept w s = .next t) :
    FaultRecordCoherent t := by
  rcases accept_next_cases ha with ⟨-, rfl⟩ | ⟨-, hc, rfl⟩ | ⟨hf, -, i, -, heff⟩
  · exact h
  · exact faultRecordCoherent_takeFault hc
  · obtain ⟨hflt, hcause, hfcmd, -⟩ := heff.faultRegisters
    rw [faultRecordCoherent_of_running hf] at h
    rwa [faultRecordCoherent_of_running (hflt.trans hf), hcause, hfcmd]

theorem faultRecordCoherent_withInput (es : List HostEvent) (h : FaultRecordCoherent s) :
    FaultRecordCoherent { s with input := es } := by
  have hcause : causeFor s.fcmd { s with input := es } = causeFor s.fcmd s := causeFor_congr rfl rfl rfl rfl s.fcmd
  simpa only [FaultRecordCoherent, hcause] using h

theorem faultRecordCoherent_reset : FaultRecordCoherent State.reset :=
  (faultRecordCoherent_of_running rfl).2 ⟨rfl, rfl⟩

/-- Settles O15: a fault records the cause of its own word and touches no register that cause looks at. -/
theorem stepKeepsTheFaultRecordCoherent : Obligations.StepKeepsTheFaultRecordCoherent := by
  unfold Obligations.StepKeepsTheFaultRecordCoherent
  intro s t
  exact step_keeps (fun _ es => faultRecordCoherent_withInput es) faultRecordCoherent_reset
    (fun _ _ _ => accept_keepsFaultRecordCoherent)

/-! ### DOUT is written only -/

section Dout
variable {d : Option Block} {r r' : Result}

/-- The same state with other contents of DOUT, or none. -/
def State.withDout (s : State) (d : Option Block) : State := { s with dout := d }

@[simp] theorem State.withDout_key (s : State) (d : Option Block) (k : KeyIndex) : (s.withDout d).key k = s.key k := by
  cases k <;> rfl

/-- `r` and `r'` are next states that agree in all but DOUT; and in DOUT too, unless both runs left it alone, where `s` and
`s.withDout d` are the states the two runs began in. -/
def AgreeBesideDout (s : State) (d : Option Block) (r r' : Result) : Prop :=
  ∃ t t', r = .next t ∧ r' = .next t' ∧ t' = { t with dout := t'.dout } ∧
    (t'.dout = t.dout ∨ (t.dout = s.dout ∧ t'.dout = d))

/-- Both runs write DOUT alike. -/
theorem agreeBesideDout_refl (s t : State) (d : Option Block) : AgreeBesideDout s d (.next t) (.next t) :=
  ⟨t, t, rfl, rfl, rfl, .inl rfl⟩

/-- Both runs leave DOUT alone. -/
theorem agreeBesideDout_withDout (h : t.dout = s.dout) (d : Option Block) :
    AgreeBesideDout s d (.next t) (.next (t.withDout d)) :=
  ⟨t, _, rfl, rfl, rfl, .inr ⟨h, rfl⟩⟩

theorem agreeBesideDout_unlessFaulted (h : AgreeBesideDout s d r r') :
    AgreeBesideDout s d (unlessFaulted s r) (unlessFaulted (s.withDout d) r') := by
  cases hf : s.flt with
  | false => rwa [unlessFaulted_of_running hf, unlessFaulted_of_running (s := s.withDout d) hf]
  | true =>
    rw [unlessFaulted_of_faulted hf, unlessFaulted_of_faulted (s := s.withDout d) hf]
    exact agreeBesideDout_withDout rfl d

theorem agreeBesideDout_requireValid {α : Type} (x : Option α) (i : Instr) {body body' : α → Result}
    (h : ∀ v, AgreeBesideDout s d (body v) (body' v)) :
    AgreeBesideDout s d (requireValid x i s body) (requireValid x i (s.withDout d) body') := by
  cases x with
  | none => exact agreeBesideDout_withDout (s := s) (t := s.takeFault .invalidSource (encode i)) rfl d
  | some v => exact h v

theorem agreeBesideDout_requireIndex {α : Type} (x : Option α) (i : Instr) {body body' : α → Result}
    (h : ∀ v, AgreeBesideDout s d (body v) (body' v)) :
    AgreeBesideDout s d (requireIndex x i s body) (requireIndex x i (s.withDout d) body') := by
  cases x with
  | none => exact agreeBesideDout_withDout (s := s) (t := s.takeFault .reservedField (encode i)) rfl d
  | some v => exact h v

/-- Check by check: no command looks at DOUT. -/
theorem exec_agreeBesideDout (i : Instr) (s : State) (d : Option Block) :
    AgreeBesideDout s d (exec i s) (exec i (s.withDout d)) := by
  cases i with
  | nop => exact agreeBesideDout_unlessFaulted (agreeBesideDout_withDout rfl d)
  | lds x => exact agreeBesideDout_unlessFaulted (agreeBesideDout_withDout (t := s.writeS _) rfl d)
  | ldk x =>
    exact agreeBesideDout_unlessFaulted (agreeBesideDout_withDout (t := (s.writeKey .k0 _).clearRoundKeys) rfl d)
  | gfm a b => exact agreeBesideDout_unlessFaulted (agreeBesideDout_refl s (s.writeDout _) d)
  | sbx a => exact agreeBesideDout_unlessFaulted (agreeBesideDout_refl s (s.writeDout _) d)
  | gfn r w =>
    exact agreeBesideDout_unlessFaulted <| agreeBesideDout_requireIndex _ _ fun _ =>
      agreeBesideDout_refl s (s.writeDout _) d
  | rds =>
    exact agreeBesideDout_unlessFaulted <| agreeBesideDout_requireValid _ _ fun _ =>
      agreeBesideDout_refl s (s.writeDout _) d
  | sub | shr | mix =>
    exact agreeBesideDout_unlessFaulted <| agreeBesideDout_requireValid _ _ fun _ =>
      agreeBesideDout_withDout (t := s.writeS _) rfl d
  | rdk k =>
    refine agreeBesideDout_unlessFaulted <| agreeBesideDout_requireIndex _ _ fun ki => ?_
    rw [State.withDout_key]
    exact agreeBesideDout_requireValid _ _ fun _ => agreeBesideDout_refl s (s.writeDout _) d
  | ark k =>
    refine agreeBesideDout_unlessFaulted <| agreeBesideDout_requireIndex _ _ fun ki =>
      agreeBesideDout_requireValid _ _ fun _ => ?_
    rw [State.withDout_key]
    exact agreeBesideDout_requireValid _ _ fun _ => agreeBesideDout_withDout (t := s.writeS _) rfl d
  | kexp r =>
    refine agreeBesideDout_unlessFaulted <| agreeBesideDout_requireIndex _ _ fun ri => ?_
    rw [State.withDout_key]
    refine agreeBesideDout_requireValid _ _ fun q => ?_
    cases ri with
    | first => exact agreeBesideDout_withDout (t := s.writeKey .k1 _) rfl d
    | second => exact agreeBesideDout_withDout (t := s.writeKey .k2 _) rfl d
  | ksch =>
    exact agreeBesideDout_unlessFaulted <| agreeBesideDout_requireValid _ _ fun _ =>
      agreeBesideDout_withDout (t := (s.writeKey .k1 _).writeKey .k2 _) rfl d
  | enc =>
    exact agreeBesideDout_unlessFaulted <| agreeBesideDout_requireValid _ _ fun _ =>
      agreeBesideDout_requireValid _ _ fun _ => agreeBesideDout_requireValid _ _ fun _ =>
        agreeBesideDout_requireValid _ _ fun _ => agreeBesideDout_refl s ((s.writeS _).writeDout _) d

end Dout

/-- Settles O19, from the run of the same command with the other contents of DOUT. -/
theorem noCommandReadsDout : Obligations.NoCommandReadsDout := by
  unfold Obligations.NoCommandReadsDout
  intro i s t d h
  obtain ⟨u, t', hu, ht', hrest, hdout⟩ := exec_agreeBesideDout i s d
  obtain rfl : t = u := next_inj.1 (hu.symm.trans h)
  exact ⟨t', ht', hrest, hdout⟩

/-! ### STATUS -/

/-- The valid bits and FLT are single bits of STATUS, low end first (R29). -/
theorem status_flagBits (s : State) :
    s.status.getLsbD 0 = s.vs ∧ s.status.getLsbD 1 = s.vk0 ∧ s.status.getLsbD 2 = s.vk1 ∧
      s.status.getLsbD 3 = s.vk2 ∧ s.status.getLsbD 4 = s.vd ∧ s.status.getLsbD 5 = s.flt := by
  simp only [State.status, BitVec.getLsbD_append]
  simp

/-- Bits 7:6 and 15:12 of STATUS are 0, and CAUSE stands in between (R29). -/
theorem status_upperFields (s : State) :
    s.status.extractLsb' 6 2 = 0#2 ∧ s.status.extractLsb' 8 4 = s.cause.code ∧ s.status.extractLsb' 12 4 = 0#4 := by
  refine ⟨?_, ?_, ?_⟩
  all_goals
    apply BitVec.eq_of_getLsbD_eq
    intro n hn
    simp only [State.status, BitVec.getLsbD_extractLsb', BitVec.getLsbD_append]
    grind

/-- Settles O16. -/
theorem statusWordFields : Obligations.StatusWordFields := by
  unfold Obligations.StatusWordFields
  refine ⟨fun s => ?_, rfl, rfl, rfl, rfl, rfl⟩
  obtain ⟨h0, h1, h2, h3, h4, h5⟩ := status_flagBits s
  exact ⟨h0, h1, h2, h3, h4, h5, status_upperFields s⟩

/-! ### Valid bits and the frame of every command -/

/-- A command that is neither ignored nor faults has its effect. -/
theorem effect_of_exec (h : exec i s = .next t) (hs : s.flt = false) (ht : t.flt = false) : Effect i s t := by
  rcases exec_next_cases h with ⟨hf, -⟩ | ⟨-, c, rfl⟩ | ⟨-, heff⟩
  · simp [hs] at hf
  · simp at ht
  · exact heff

/-- A word that ends in the faulted state has left every data register alone. -/
theorem accept_faulted_validBits (h : accept w s = .next t) (ht : t.flt = true) :
    t.vs = s.vs ∧ t.vk0 = s.vk0 ∧ t.vk1 = s.vk1 ∧ t.vk2 = s.vk2 ∧ t.vd = s.vd := by
  rcases accept_next_cases h with ⟨-, rfl⟩ | ⟨-, -, rfl⟩ | ⟨hf, -, i, -, heff⟩
  · exact ⟨rfl, rfl, rfl, rfl, rfl⟩
  · exact ⟨rfl, rfl, rfl, rfl, rfl⟩
  · simp [heff.faultRegisters.1, hf] at ht

/-- Settles O17: the table for effects, the frame of a fault, and the reset state. -/
theorem validBitsAreSetAndClearedByTheTable : Obligations.ValidBitsAreSetAndClearedByTheTable := by
  unfold Obligations.ValidBitsAreSetAndClearedByTheTable
  refine ⟨fun i s t h hs ht => (effect_of_exec h hs ht).validBits,
    fun w s t => accept_faulted_validBits, fun s t rest hin h => ?_⟩
  obtain rfl := next_inj.1 ((step_of_reset hin).symm.trans h)
  exact ⟨rfl, rfl, rfl, rfl, rfl⟩

/-- Settles O18: a command is ignored, or takes a fault, or has its effect, which keeps what it does not list. -/
theorem onlyTheListedCommandsChangeARegister : Obligations.OnlyTheListedCommandsChangeARegister := by
  unfold Obligations.OnlyTheListedCommandsChangeARegister
  intro i s t h
  suffices hframe : KeepsUnlisted i s t ∧
      ((t.flt = s.flt ∧ t.cause = s.cause ∧ t.fcmd = s.fcmd) ∨
        (s.flt = false ∧ ∃ c, t = faulted c (encode i) s)) ∧ t.input = s.input by
    simpa only [KeepsUnlisted, and_assoc] using hframe
  rcases exec_next_cases h with ⟨-, rfl⟩ | ⟨hf, c, rfl⟩ | ⟨-, heff⟩
  · exact ⟨keepsUnlisted_refl i t, .inl ⟨rfl, rfl, rfl⟩, rfl⟩
  · exact ⟨keepsUnlisted_refl i s, .inr ⟨hf, c, rfl⟩, rfl⟩
  · obtain ⟨hflt, hcause, hfcmd, hinput⟩ := heff.faultRegisters
    exact ⟨heff.keepsUnlisted, .inl ⟨hflt, hcause, hfcmd⟩, hinput⟩

end Sys2Proof.Machine

/-! ### The port -/

namespace Sys2Proof.Machine

variable {lat : BitVec 4 → Nat} {p : PortState} {x : Pins}

@[simp] theorem edges_nil (lat : BitVec 4 → Nat) (p : PortState) : edges lat p [] = p := rfl

@[simp] theorem edges_cons (lat : BitVec 4 → Nat) (p : PortState) (x : Pins) (xs : List Pins) :
    edges lat p (x :: xs) = edges lat (edge lat p x) xs := rfl

theorem edges_append (lat : BitVec 4 → Nat) (p : PortState) (xs ys : List Pins) :
    edges lat p (xs ++ ys) = edges lat (edges lat p xs) ys := by
  induction xs generalizing p with
  | nil => rfl
  | cons x xs ih => exact ih _

/-- The events of one edge are what it does to the CORE: whatever comes after, running them is taking the edge. -/
theorem runEvents_edgeEvents (lat : BitVec 4 → Nat) (p : PortState) (x : Pins) (es : List HostEvent) :
    runEvents (edgeEvents p x ++ es) p.core = runEvents es (edge lat p x).core := by
  obtain ⟨rst, valid, cmd⟩ := x
  obtain ⟨s, busy⟩ := p
  cases rst with
  | true => simp [edgeEvents, edge, State.applyReset, runEvents_input]
  | false =>
    match busy with
    | some (w, n + 2) => rfl
    | some (w, 1) => exact runEvents_command_commit w es s
    | some (w, 0) => exact runEvents_command_commit w es s
    | none =>
      cases valid with
      | false => rfl
      | true =>
        cases hf : s.flt with
        | false => simp [edgeEvents, edge, hf]
        | true => simp [edgeEvents, edge, hf, commit_of_faulted hf]

/-- No edge invents input for the CORE. -/
theorem edge_core_input (lat : BitVec 4 → Nat) (p : PortState) (x : Pins) :
    (edge lat p x).core.input = p.core.input := by
  unfold edge
  split
  · rfl
  · split
    · rfl
    · exact commit_input _ _
    · split <;> rfl

/-- Edge by edge, from any state of the port. -/
theorem runEvents_eventsOf (lat : BitVec 4 → Nat) (p : PortState) (xs : List Pins) (hin : p.core.input = []) :
    runEvents (eventsOf lat p xs) p.core = .next (edges lat p xs).core := by
  induction xs generalizing p with
  | nil => rw [eventsOf, edges_nil, runEvents_nil, ← hin]
  | cons x xs ih =>
    rw [eventsOf, runEvents_edgeEvents lat, edges_cons]
    exact ih _ ((edge_core_input lat p x).trans hin)

/-- Settles O49, from the port's reset state. -/
theorem portRefinesTheCommandSequence : Obligations.PortRefinesTheCommandSequence := by
  unfold Obligations.PortRefinesTheCommandSequence
  exact fun lat xs => runEvents_eventsOf lat PortState.reset xs rfl

/-- The edge that accepts a command only records it with its latency (R43, R281). -/
theorem edge_of_accepts (ha : accepts p x = true) (hf : p.core.flt = false) :
    edge lat p x = { p with busy := some (x.cmd, lat (opField x.cmd)) } := by
  obtain ⟨⟨hrst, hready⟩, hvalid⟩ : (x.rst = false ∧ p.busy = none) ∧ x.cmdValid = true := by
    simpa [accepts, PortState.cmdReady] using ha
  simp [edge, hrst, hready, hvalid, hf]

/-- While a command has more than one period to go, an edge without reset only counts down. -/
theorem edges_of_busy (s : State) (w : Command) (k : Nat) (ys : List Pins) (hrst : ∀ z ∈ ys, z.rst = false) :
    edges lat ⟨s, some (w, ys.length + (k + 1))⟩ ys = ⟨s, some (w, k + 1)⟩ := by
  induction ys with
  | nil => simp
  | cons y ys ih =>
    obtain ⟨hy, hys⟩ := List.forall_mem_cons.1 hrst
    have hedge : edge lat ⟨s, some (w, ys.length + k + 2)⟩ y = ⟨s, some (w, ys.length + (k + 1))⟩ := by
      simp [edge, hy, Nat.add_assoc]
    rw [List.length_cons, show ys.length + 1 + (k + 1) = ys.length + k + 2 by omega, edges_cons, hedge, ih hys]

/-- The last edge of a command shows its whole effect (R275). -/
theorem edge_of_last_period (s : State) (w : Command) (hrst : x.rst = false) :
    edge lat ⟨s, some (w, 1)⟩ x = ⟨commit w s, none⟩ := by
  simp [edge, hrst]

/-- Settles O50: the port counts down and then commits. -/
theorem acceptedCommandCompletesAfterItsLatency : Obligations.AcceptedCommandCompletesAfterItsLatency := by
  unfold Obligations.AcceptedCommandCompletesAfterItsLatency
  intro lat p x n ys y ha hf hlat hlen hys hy
  rw [edge_of_accepts ha hf, hlat]
  constructor
  · intro m hm
    have hbusy := edges_of_busy (lat := lat) p.core x.cmd (n - m) (ys.take m) fun z hz => hys z (List.mem_of_mem_take hz)
    rw [List.length_take, show min m ys.length + (n - m + 1) = n + 1 by omega] at hbusy
    rw [hbusy]
    exact ⟨rfl, rfl⟩
  · have hbusy := edges_of_busy (lat := lat) p.core x.cmd 0 ys hys
    rw [hlen] at hbusy
    rw [edges_append, hbusy, edges_cons, edges_nil, edge_of_last_period p.core x.cmd hy]

/-! ### One step, reset, the textbook tables -/

/-- Settles O7, one event at a time. -/
theorem stepRunsTheDecodedCommand : Obligations.StepRunsTheDecodedCommand := by
  unfold Obligations.StepRunsTheDecodedCommand
  refine ⟨fun s h => by rw [step, takeEvent_idle h], fun s rest h => step_of_reset h, fun s w rest i h hd => ?_,
    fun s w rest d h hd hf => ?_⟩
  · rw [step_of_command h, accept_of_decode_ok hd]
  · rw [step_of_command h, accept_of_decode_error hd, acceptIllegal_eq_next]
    exact .inr ⟨hf, rfl⟩

/-- Settles O8: either way the state is `State.reset` but for the host's input. -/
theorem resetLeavesTheValuesOfTheTable : Obligations.ResetLeavesTheValuesOfTheTable := by
  unfold Obligations.ResetLeavesTheValuesOfTheTable
  intro t ht
  obtain ⟨rest, rfl⟩ : ∃ rest, t = { State.reset with input := rest } := by
    rcases ht with rfl | ⟨s, rest, hin, h⟩
    · exact ⟨[], rfl⟩
    · exact ⟨rest, next_inj.1 ((step_of_reset hin).symm.trans h)⟩
  have hstatus : State.reset.status = 0#16 := rfl
  exact ⟨rfl, rfl, rfl, rfl, rfl, rfl, rfl, rfl, rfl, rfl, rfl, rfl, rfl, hstatus⟩

/-- Settles O13. -/
theorem invariantsHoldAtReset : Obligations.InvariantsHoldAtReset := by
  unfold Obligations.InvariantsHoldAtReset
  exact ⟨keysCoherent_reset, faultRecordCoherent_reset, rfl, rfl, rfl, rfl, rfl⟩

/-- Settles O43, by evaluating the model on the spec's worked values. -/
theorem textbookVectors : Obligations.TextbookVectors := by
  unfold Obligations.TextbookVectors
  decide

end Sys2Proof.Machine

/-! PROOFS, encoding family. Decoding undoes encoding; the two kinds of illegal word by their own bits; how many words are
commands; and that the assembler gives no other word. -/

namespace Sys2Proof.Machine
open Sys2Proof.Claims

/-! ### Decoding and encoding undo each other -/

/-- A well-formed command is what its word decodes to (R70 to R75). -/
theorem decode_encode {i : Instr} (h : i.wellFormed = true) : decode (encode i) = .ok i := by
  cases i with
  | nop => exact (decode_fields_nop _ _).trans (if_pos ⟨rfl, rfl⟩)
  | rds => exact (decode_fields_rds _ _).trans (if_pos ⟨rfl, rfl⟩)
  | sub => exact (decode_fields_sub _ _).trans (if_pos ⟨rfl, rfl⟩)
  | shr => exact (decode_fields_shr _ _).trans (if_pos ⟨rfl, rfl⟩)
  | mix => exact (decode_fields_mix _ _).trans (if_pos ⟨rfl, rfl⟩)
  | ksch => exact (decode_fields_ksch _ _).trans (if_pos ⟨rfl, rfl⟩)
  | enc => exact (decode_fields_enc _ _).trans (if_pos ⟨rfl, rfl⟩)
  | lds imm16 => exact (decode_fields_lds _ imm16).trans (if_pos rfl)
  | ldk imm16 => exact (decode_fields_ldk _ imm16).trans (if_pos rfl)
  | rdk k => exact (decode_fields_rdk k _).trans (if_pos ⟨of_decide_eq_true h, rfl⟩)
  | ark k => exact (decode_fields_ark k _).trans (if_pos ⟨of_decide_eq_true h, rfl⟩)
  | kexp r => exact (decode_fields_kexp r _).trans (if_pos ⟨of_decide_eq_true h, rfl⟩)
  | gfm a b =>
    rw [encode, decode_fields_gfm, if_pos ⟨rfl, highByte_zero_append_nibbles a b⟩,
      highNibble_append_nibbles, lowNibble_append_nibbles]
  | sbx a => rw [encode, decode_fields_sbx, if_pos ⟨rfl, highTwelve_zero_append a⟩, lowNibble_zero_append]
  | gfn r w =>
    rw [encode, decode_fields_gfn, if_pos ⟨of_decide_eq_true h, highByte_zero_append_byte w⟩, lowByte_zero_append_byte]

/-- Settles O1, command by command. -/
theorem decodeOfEncodeGivesTheCommand : Obligations.DecodeOfEncodeGivesTheCommand := by
  unfold Obligations.DecodeOfEncodeGivesTheCommand
  exact fun _ => decode_encode

/-- Settles O2: the state family's inversion of `decode`. -/
theorem encodeOfDecodeGivesTheWord : Obligations.EncodeOfDecodeGivesTheWord := by
  unfold Obligations.EncodeOfDecodeGivesTheWord
  exact encode_of_decode

/-- Settles O5: each word is the encoding of its command. -/
theorem workedEncodingsDecode : Obligations.WorkedEncodingsDecode := by
  unfold Obligations.WorkedEncodingsDecode
  exact ⟨decode_encode (i := .ldk 0x4AF5#16) rfl, decode_encode (i := .lds 0xD728#16) rfl,
    decode_encode (i := .ark 1#4) rfl, decode_encode (i := .kexp 1#4) rfl,
    decode_encode (i := .gfm 4#4 0xE#4) rfl, decode_encode (i := .sbx 9#4) rfl,
    decode_encode (i := .gfn 1#4 0x28#8) rfl, decode_encode (i := .enc) rfl, decode_encode (i := .nop) rfl⟩

/-! ### Illegal words -/

/-- Opcode 0xF, and no other, is illegal for its opcode (R77). -/
theorem decode_eq_illegalOpcode_iff (w : Command) : decode w = .error .illegalOpcode ↔ w.extractLsb' 20 4 = 0xF#4 := by
  change _ ↔ opField w = 0xF#4
  rw [← opcodeRow_eq_none_iff]
  cases h : opcodeRow (opField w) with
  | none => simp [decode_of_no_row h]
  | some row =>
    rw [decode_of_row h]
    split <;> simp

/-- A CORE without a fault that accepts an illegal word records the fault of its decoding (R238). -/
theorem accept_eq_faulted {w : Command} {s : State} {d : DecodeFault} (hs : s.flt = false) (hd : decode w = .error d) :
    accept w s = .next (faulted (causeOfDecode d) w s) := by
  rw [accept_of_decode_error hd, acceptIllegal, unlessFaulted_of_running hs]
  rfl

/-- Settles O3. -/
theorem opcodeFRaisesIllegalOpcode : Obligations.OpcodeFRaisesIllegalOpcode := by
  unfold Obligations.OpcodeFRaisesIllegalOpcode
  exact ⟨decode_eq_illegalOpcode_iff, fun w _ hs hw => accept_eq_faulted hs ((decode_eq_illegalOpcode_iff w).2 hw)⟩

/-- The conditions of R232 on a word given by its fields. -/
theorem reservedBits_assembleFields (op idx : BitVec 4) (imm : Block) :
    reservedBits (assembleFields op idx imm) ↔
      (op ∈ [0x0#4, 0x3#4, 0x6#4, 0x7#4, 0x8#4, 0xA#4, 0xB#4] ∧ ¬(idx = 0#4 ∧ imm = 0#16)) ∨
        (op ∈ [0x1#4, 0x2#4] ∧ ¬idx = 0#4) ∨
        (op ∈ [0x4#4, 0x5#4] ∧ ¬(idx.toNat ≤ 2 ∧ imm = 0#16)) ∨
        (op = 0x9#4 ∧ ¬(idx.toNat ≤ 1 ∧ imm = 0#16)) ∨
        (op = 0xC#4 ∧ ¬(idx = 0#4 ∧ imm.extractLsb' 8 8 = 0#8)) ∨
        (op = 0xD#4 ∧ ¬(idx = 0#4 ∧ imm.extractLsb' 4 12 = 0#12)) ∨
        (op = 0xE#4 ∧ ¬(idx.toNat ≤ 1 ∧ imm.extractLsb' 8 8 = 0#8)) := by
  have himm : (assembleFields op idx imm).extractLsb' 0 16 = imm := immField_assembleFields op idx imm
  have hidx : idx.toNat ≠ 0 ↔ ¬idx = 0#4 := not_congr (BitVec.toNat_inj (y := 0#4))
  simp only [reservedBits, bits23to20_assembleFields, bits19to16_assembleFields, himm, ne_eq,
    immBits_assembleFields op idx imm (k := 8) (len := 8) (by decide), bits19to0_assembleFields_eq_zero_iff,
    bits19to8_assembleFields_eq_zero_iff, bits19to4_assembleFields_eq_zero_iff, hidx, not_and_or, not_le]

theorem ite_ok_eq_error_iff {ε α : Type} {c : Prop} [Decidable c] {e : ε} {a : α} :
    (if c then Except.ok a else Except.error e) = Except.error e ↔ ¬c := by
  split <;> simp_all

/-- A must-be-zero bit that is 1, or an index above its range, and nothing else, is a reserved field (R78): opcode by
opcode. -/
theorem decode_eq_reservedField_iff : ∀ w : Command, decode w = .error .reservedField ↔ reservedBits w := by
  rw [forall_command_iff_fields]
  intro op idx imm
  rw [reservedBits_assembleFields]
  rcases opcode_cases op with
    rfl | rfl | rfl | rfl | rfl | rfl | rfl | rfl | rfl | rfl | rfl | rfl | rfl | rfl | rfl | rfl
  · rw [decode_fields_nop, ite_ok_eq_error_iff]; simp
  · rw [decode_fields_lds, ite_ok_eq_error_iff]; simp
  · rw [decode_fields_ldk, ite_ok_eq_error_iff]; simp
  · rw [decode_fields_rds, ite_ok_eq_error_iff]; simp
  · rw [decode_fields_rdk, ite_ok_eq_error_iff]; simp
  · rw [decode_fields_ark, ite_ok_eq_error_iff]; simp
  · rw [decode_fields_sub, ite_ok_eq_error_iff]; simp
  · rw [decode_fields_shr, ite_ok_eq_error_iff]; simp
  · rw [decode_fields_mix, ite_ok_eq_error_iff]; simp
  · rw [decode_fields_kexp, ite_ok_eq_error_iff]; simp
  · rw [decode_fields_ksch, ite_ok_eq_error_iff]; simp
  · rw [decode_fields_enc, ite_ok_eq_error_iff]; simp
  · rw [decode_fields_gfm, ite_ok_eq_error_iff]; simp
  · rw [decode_fields_sbx, ite_ok_eq_error_iff]; simp
  · rw [decode_fields_gfn, ite_ok_eq_error_iff]; simp
  · rw [decode_fields_reserved]; simp

/-- Settles O4. -/
theorem reservedFieldsRaiseReservedField : Obligations.ReservedFieldsRaiseReservedField := by
  unfold Obligations.ReservedFieldsRaiseReservedField
  exact ⟨decode_eq_reservedField_iff, fun w _ hs hw => accept_eq_faulted hs ((decode_eq_reservedField_iff w).2 hw)⟩

/-! ### How many words are commands -/

/-- A key index field in range (R72). -/
abbrev LegalKeyField : Type := { k : BitVec 4 // k.toNat ≤ 2 }

/-- A round index field in range (R72). -/
abbrev LegalRoundField : Type := { r : BitVec 4 // r.toNat ≤ 1 }

/-- What the command with a given opcode carries, at its legal values (R72, R73). -/
def Operands : Fin 15 → Type
  | 0x1 | 0x2 => Block
  | 0x4 | 0x5 => LegalKeyField
  | 0x9 => LegalRoundField
  | 0xC => Nibble × Nibble
  | 0xD => Nibble
  | 0xE => LegalRoundField × BitVec 8
  | _ => Unit

/-- The command with a given opcode and operands. -/
def commandOf : (op : Fin 15) × Operands op → { i : Instr // i.wellFormed = true }
  | ⟨0x0, _⟩ => ⟨.nop, rfl⟩
  | ⟨0x1, x⟩ => ⟨.lds x, rfl⟩
  | ⟨0x2, x⟩ => ⟨.ldk x, rfl⟩
  | ⟨0x3, _⟩ => ⟨.rds, rfl⟩
  | ⟨0x4, ⟨k, hk⟩⟩ => ⟨.rdk k, decide_eq_true hk⟩
  | ⟨0x5, ⟨k, hk⟩⟩ => ⟨.ark k, decide_eq_true hk⟩
  | ⟨0x6, _⟩ => ⟨.sub, rfl⟩
  | ⟨0x7, _⟩ => ⟨.shr, rfl⟩
  | ⟨0x8, _⟩ => ⟨.mix, rfl⟩
  | ⟨0x9, ⟨r, hr⟩⟩ => ⟨.kexp r, decide_eq_true hr⟩
  | ⟨0xA, _⟩ => ⟨.ksch, rfl⟩
  | ⟨0xB, _⟩ => ⟨.enc, rfl⟩
  | ⟨0xC, (a, b)⟩ => ⟨.gfm a b, rfl⟩
  | ⟨0xD, a⟩ => ⟨.sbx a, rfl⟩
  | ⟨0xE, (⟨r, hr⟩, w)⟩ => ⟨.gfn r w, decide_eq_true hr⟩

/-- The opcode and the operands of a well-formed command. -/
def operandsOf : { i : Instr // i.wellFormed = true } → (op : Fin 15) × Operands op
  | ⟨.nop, _⟩ => ⟨0x0, ()⟩
  | ⟨.lds x, _⟩ => ⟨0x1, x⟩
  | ⟨.ldk x, _⟩ => ⟨0x2, x⟩
  | ⟨.rds, _⟩ => ⟨0x3, ()⟩
  | ⟨.rdk k, hk⟩ => ⟨0x4, k, of_decide_eq_true hk⟩
  | ⟨.ark k, hk⟩ => ⟨0x5, k, of_decide_eq_true hk⟩
  | ⟨.sub, _⟩ => ⟨0x6, ()⟩
  | ⟨.shr, _⟩ => ⟨0x7, ()⟩
  | ⟨.mix, _⟩ => ⟨0x8, ()⟩
  | ⟨.kexp r, hr⟩ => ⟨0x9, r, of_decide_eq_true hr⟩
  | ⟨.ksch, _⟩ => ⟨0xA, ()⟩
  | ⟨.enc, _⟩ => ⟨0xB, ()⟩
  | ⟨.gfm a b, _⟩ => ⟨0xC, (a, b)⟩
  | ⟨.sbx a, _⟩ => ⟨0xD, a⟩
  | ⟨.gfn r w, hr⟩ => ⟨0xE, (⟨r, of_decide_eq_true hr⟩, w)⟩

theorem operandsOf_commandOf (x : (op : Fin 15) × Operands op) : operandsOf (commandOf x) = x := by
  obtain ⟨op, x⟩ := x
  fin_cases op <;> rfl

theorem commandOf_operandsOf (i : { i : Instr // i.wellFormed = true }) : commandOf (operandsOf i) = i := by
  obtain ⟨i, _⟩ := i
  cases i <;> rfl

theorem natCard_bitVec (n : Nat) : Nat.card (BitVec n) = 2 ^ n := by
  rw [Nat.card_eq_fintype_card, ← FinEnum.card_eq_fintypeCard, FinEnum.card_bitVec]

/-- The rows' counts of R79. -/
theorem card_operands (op : Fin 15) :
    Nat.card (Operands op) = ![1, 65536, 65536, 1, 3, 3, 1, 1, 1, 2, 1, 1, 256, 16, 512] op := by
  have hkey : Nat.card LegalKeyField = 3 := by rw [Nat.card_eq_fintype_card]; rfl
  have hround : Nat.card LegalRoundField = 2 := by rw [Nat.card_eq_fintype_card]; rfl
  fin_cases op <;> simp [-Nat.card_eq_fintype_card, Operands, Nat.card_prod, hkey, hround, natCard_bitVec]

theorem finite_operands (op : Fin 15) : Finite (Operands op) :=
  Nat.finite_of_card_ne_zero (by rw [card_operands]; fin_cases op <;> decide)

/-- R79's sum over the rows of the opcode map. -/
theorem card_wellFormed : Nat.card { i : Instr // i.wellFormed = true } = 131871 := by
  have := finite_operands
  rw [Nat.card_congr ⟨operandsOf, commandOf, commandOf_operandsOf, operandsOf_commandOf⟩, Nat.card_sigma]
  simp only [card_operands]
  rfl

/-- The word of a well-formed command, with the fact that it is legal. -/
def legalWord (i : { i : Instr // i.wellFormed = true }) : { w : Command // ∃ i, decode w = .ok i } :=
  ⟨encode i, i, decode_encode i.2⟩

/-- Legal words and well-formed commands correspond one to one. -/
theorem legalWord_bijective : Function.Bijective legalWord := by
  constructor
  · intro i j h
    have henc : encode i = encode j := congrArg Subtype.val h
    have hdec := decode_encode i.2
    rw [henc, decode_encode j.2] at hdec
    exact Subtype.ext (Except.ok.inj hdec).symm
  · rintro ⟨w, i, h⟩
    obtain ⟨henc, hwf⟩ := encode_of_decode w i h
    exact ⟨⟨i, hwf⟩, Subtype.ext henc⟩

/-- Settles O6, by counting the well-formed commands. -/
theorem legalWordCount : Obligations.LegalWordCount := by
  unfold Obligations.LegalWordCount
  exact (Nat.card_eq_of_bijective _ legalWord_bijective).symm.trans card_wellFormed

/-! ### The assembler -/

/-- Every command an assembler's answer holds is well formed. -/
def YieldsWellFormed (r : Except AsmError (List Instr)) : Prop :=
  ∀ is, r = .ok is → ∀ i ∈ is, i.wellFormed = true

theorem yieldsWellFormed_ok {is : List Instr} (h : ∀ i ∈ is, i.wellFormed = true) : YieldsWellFormed (.ok is) := by
  rintro _ ⟨⟩
  exact h

theorem yieldsWellFormed_error (e : AsmError) : YieldsWellFormed (.error e) := nofun

theorem operandBelow_yieldsWellFormed {bound : Nat} {k : Nat → List Instr}
    (h : ∀ n < bound, ∀ i ∈ k n, i.wellFormed = true) (n : Nat) : YieldsWellFormed (operandBelow bound n k) := by
  unfold operandBelow
  split
  · next hn => exact yieldsWellFormed_ok (h n hn)
  · exact yieldsWellFormed_error _

theorem noOperand_yieldsWellFormed {is : List Instr} (h : ∀ i ∈ is, i.wellFormed = true) (ops : List Nat) :
    YieldsWellFormed (noOperand is ops) := by
  unfold noOperand
  split
  · exact yieldsWellFormed_ok h
  · exact yieldsWellFormed_error _

theorem oneOperand_yieldsWellFormed {bound : Nat} {k : Nat → List Instr}
    (h : ∀ n < bound, ∀ i ∈ k n, i.wellFormed = true) (ops : List Nat) :
    YieldsWellFormed (oneOperand bound k ops) := by
  unfold oneOperand
  split
  · exact operandBelow_yieldsWellFormed h _
  · exact yieldsWellFormed_error _

theorem twoOperands_yieldsWellFormed {bound₁ bound₂ : Nat} {k : Nat → Nat → List Instr}
    (h : ∀ m < bound₁, ∀ n < bound₂, ∀ i ∈ k m n, i.wellFormed = true) (ops : List Nat) :
    YieldsWellFormed (twoOperands bound₁ bound₂ k ops) := by
  unfold twoOperands
  split
  · split
    · next hm => exact operandBelow_yieldsWellFormed (h _ hm) _
    · exact yieldsWellFormed_error _
  · exact yieldsWellFormed_error _

theorem toNat_ofNat_le {n m : Nat} (h : n < m + 1) : (BitVec.ofNat 4 n).toNat ≤ m :=
  (BitVec.toNat_ofNat n 4 ▸ Nat.mod_le n _).trans (Nat.le_of_lt_succ h)

/-- The assembler's operand bounds are the index ranges of R72. The cases are the lines of `assembleCommand` in order: those
with an index operand come first. -/
theorem assembleCommand_yieldsWellFormed (mnemonic : List Char) (ops : List Nat) :
    YieldsWellFormed (assembleCommand mnemonic ops) := by
  unfold assembleCommand
  split
  case h_5 | h_6 | h_10 =>
    refine oneOperand_yieldsWellFormed (fun n hn => ?_) ops
    simpa [Instr.wellFormed] using toNat_ofNat_le hn
  case h_15 =>
    refine twoOperands_yieldsWellFormed (fun m hm n _ => ?_) ops
    simpa [Instr.wellFormed] using toNat_ofNat_le hm
  case h_13 => exact twoOperands_yieldsWellFormed (by simp [Instr.wellFormed]) ops
  case h_2 | h_3 | h_14 => exact oneOperand_yieldsWellFormed (by simp [Instr.wellFormed]) ops
  case h_16 => exact oneOperand_yieldsWellFormed (by simp [Instr.wellFormed, setKey]) ops
  case h_17 => exact oneOperand_yieldsWellFormed (by simp [Instr.wellFormed, encBlk]) ops
  case h_21 => exact yieldsWellFormed_error _
  all_goals exact noOperand_yieldsWellFormed (by decide) ops

theorem assembleLine_yieldsWellFormed (line : List Char) : YieldsWellFormed (assembleLine line) := by
  unfold assembleLine
  split
  · exact yieldsWellFormed_ok (by simp)
  · split
    · exact yieldsWellFormed_error _
    · exact assembleCommand_yieldsWellFormed _ _

/-- The words of a program that assembles are words of well-formed commands (R81). -/
theorem assembleProgram_words {lines : List (List Char)} {ws : List Command} (h : assembleProgram lines = .ok ws) :
    ∀ w ∈ ws, ∃ i : Instr, i.wellFormed = true ∧ encode i = w := by
  induction lines generalizing ws with
  | nil =>
    cases h
    simp
  | cons line rest ih =>
    rw [assembleProgram] at h
    split at h
    · cases h
    · next is his =>
      split at h
      · cases h
      · next ws' hrest =>
        cases h
        intro w hw
        rcases List.mem_append.1 hw with hw | hw
        · obtain ⟨i, hi, rfl⟩ := List.mem_map.1 hw
          exact ⟨i, assembleLine_yieldsWellFormed line is his i hi, rfl⟩
        · exact ih hrest w hw

/-- Settles O58: the words of well-formed commands decode. -/
theorem assemblerEmitsOnlyLegalWords : Obligations.AssemblerEmitsOnlyLegalWords := by
  unfold Obligations.AssemblerEmitsOnlyLegalWords
  intro lines ws h w hw
  obtain ⟨i, hwf, rfl⟩ := assembleProgram_words h w hw
  exact ⟨i, decode_encode hwf⟩

end Sys2Proof.Machine

/-! PROOFS, field multiplier family. The loop of R102 keeps `acc + a * b` as an element of the field, so `gf_mul` is the
product of polynomials modulo x⁴+x+1 (R100, R101); the field's laws (R105, R106) are then those of the quotient ring. -/

namespace Sys2Proof.Machine
open Sys2Proof.Claims

/-! ### The command GFM -/

theorem zext16_nibble (v : Nibble) : zext16 v = 0#12 ++ v := by
  apply BitVec.eq_of_getLsbD_eq
  intro n hn
  simp only [zext16, BitVec.getLsbD_setWidth, BitVec.getLsbD_append]
  grind

theorem exec_gfm_of_running (a b : Nibble) {s : State} (hs : s.flt = false) :
    exec (.gfm a b) s = .next { s with dout := some (0#12 ++ gfMul a b) } := by
  rw [← zext16_nibble]
  exact (execGfm_next a b).2 (.inr ⟨hs, rfl⟩)

/-- The format AB of opcode 0xC: the word `0xC000ab` (R109). -/
theorem encode_gfm (a b : Nibble) : encode (.gfm a b) = 0xC000#16 ++ a ++ b := by
  rw [show 0xC000#16 = 0xC#4 ++ 0#4 ++ 0#8 from rfl]
  apply BitVec.eq_of_getLsbD_eq
  intro n hn
  simp only [encode, assembleFields, BitVec.getLsbD_append]
  grind

/-- Settles O34. -/
theorem gfmMultipliesTwoNibbles : Obligations.GfmMultipliesTwoNibbles := by
  unfold Obligations.GfmMultipliesTwoNibbles
  refine ⟨fun a b _ hs => exec_gfm_of_running a b hs, fun a b => ?_, fun w hop => ?_⟩
  · rw [← encode_gfm]
    exact decode_encode rfl
  · rw [decode_eq_reservedField_iff]
    simp [reservedBits, hop]

/-! ### Nibbles as polynomials -/

theorem fieldPoly_monic : fieldPoly.Monic := by
  unfold fieldPoly
  monicity!

theorem degree_fieldPoly : fieldPoly.degree = 4 := by
  unfold fieldPoly
  compute_degree!

/-- The coefficients of a nibble's polynomial are its bits (R101). -/
theorem coeff_poly (a : Nibble) (i : Nat) : (poly a).coeff i = if a.getLsbD i then 1 else 0 := by
  have hterm (j : Nat) : (if a.getLsbD j then (Polynomial.X ^ j : Polynomial (ZMod 2)) else 0).coeff i =
      if i = j then (if a.getLsbD j then 1 else 0) else 0 := by
    split <;> simp [Polynomial.coeff_X_pow]
  simp only [poly, Polynomial.finsetSum_coeff, hterm, Finset.sum_ite_eq, Finset.mem_range]
  split
  · rfl
  · next hi => rw [BitVec.getLsbD_of_ge a i (not_lt.1 hi)]; rfl

theorem poly_injective : Function.Injective poly := by
  intro a b h
  apply BitVec.eq_of_getLsbD_eq
  intro i _
  have hcoeff := congrArg (Polynomial.coeff · i) h
  simp only [coeff_poly] at hcoeff
  cases ha : a.getLsbD i <;> cases hb : b.getLsbD i <;> simp_all

/-- A nibble's polynomial is its own remainder. -/
theorem poly_modByMonic (a : Nibble) : poly a %ₘ fieldPoly = poly a := by
  rw [Polynomial.modByMonic_eq_self_iff fieldPoly_monic, degree_fieldPoly]
  refine (Polynomial.degree_lt_iff_coeff_zero _ 4).2 fun i hi => ?_
  rw [coeff_poly, BitVec.getLsbD_of_ge a i hi]
  rfl

/-! ### Elements of the field -/

/-- The field of R105 and R106: polynomials modulo x⁴+x+1. -/
abbrev Field16 : Type := AdjoinRoot fieldPoly

/-- The class of `x`, the nibble 2 (R101). -/
noncomputable abbrev fieldX : Field16 := AdjoinRoot.root fieldPoly

/-- A coefficient. -/
noncomputable def bitElement (b : Bool) : Field16 := if b then 1 else 0

@[simp] theorem bitElement_true : bitElement true = 1 := rfl

@[simp] theorem bitElement_false : bitElement false = 0 := rfl

/-- The element a working value of the loop stands for; its five bits may still hold an `x⁴` (R102). -/
noncomputable def loopElement (v : BitVec 5) : Field16 :=
  ∑ i ∈ Finset.range 5, bitElement (v.getLsbD i) * fieldX ^ i

/-- The element a nibble stands for. -/
noncomputable def element (a : Nibble) : Field16 := AdjoinRoot.mk fieldPoly (poly a)

theorem element_eq_loopElement (a : Nibble) : element a = loopElement (a.setWidth 5) := by
  have hbit (i : Nat) : AdjoinRoot.mk fieldPoly (if a.getLsbD i then Polynomial.X ^ i else 0) =
      bitElement (a.getLsbD i) * fieldX ^ i := by
    cases a.getLsbD i <;> simp
  simp only [element, poly, loopElement, map_sum, hbit]
  simp [Finset.sum_range_succ]

theorem field16_add_self (u : Field16) : u + u = 0 := ZModModule.add_self u

/-- The field has characteristic 2, so exclusive-or of bits is addition. -/
theorem bitElement_xor (p q : Bool) : bitElement (p ^^ q) = bitElement p + bitElement q := by
  cases p <;> cases q <;> simp [field16_add_self]

theorem bitElement_and (p q : Bool) : bitElement (p && q) = bitElement p * bitElement q := by
  cases p <;> simp

/-- Addition in the field is exclusive-or (R101). -/
theorem loopElement_xor (v w : BitVec 5) : loopElement (v ^^^ w) = loopElement v + loopElement w := by
  simp only [loopElement, BitVec.getLsbD_xor, bitElement_xor, add_mul, Finset.sum_add_distrib]

@[simp] theorem loopElement_zero : loopElement 0#5 = 0 := by simp [loopElement]

/-- The field reduces x⁴+x+1 to 0. -/
theorem fieldX_root : fieldX ^ 4 + fieldX + 1 = 0 := by
  have hself : AdjoinRoot.mk fieldPoly (Polynomial.X ^ 4 + Polynomial.X + 1) = 0 := AdjoinRoot.mk_self
  simpa using hself

theorem fieldX_pow_four : fieldX ^ 4 = fieldX + 1 := by
  linear_combination fieldX_root - field16_add_self (fieldX + 1)

/-- `0x13` is x⁴+x+1 (R101). -/
theorem loopElement_fieldPoly : loopElement 0x13#5 = 0 := by
  rw [← fieldX_root]
  simp [loopElement, Finset.sum_range_succ]
  ring

theorem topBit_of_msb {v : BitVec 5} (h : v.msb = false) : v[4] = false := by
  simpa [BitVec.msb_eq_getLsbD_last] using h

theorem loopElement_shiftLeft {v : BitVec 5} (h : v.msb = false) :
    loopElement (v <<< 1) = fieldX * loopElement v := by
  simp [loopElement, Finset.sum_range_succ, topBit_of_msb h]
  ring

theorem loopElement_shiftRight (v : BitVec 5) :
    loopElement v = bitElement (v.getLsbD 0) + fieldX * loopElement (v >>> 1) := by
  simp [loopElement, Finset.sum_range_succ]
  ring

/-! ### The loop -/

/-- The element the loop has still to deliver: what is accumulated, and the product of what is left (R102). -/
noncomputable def MulLoop.element (l : MulLoop) : Field16 := loopElement l.acc + loopElement l.a * loopElement l.b

/-- `a` and `acc` are nibbles at the start of every iteration (R103). -/
def MulLoop.InNibbles (l : MulLoop) : Prop := l.a.msb = false ∧ l.acc.msb = false

theorem mulIteration_a (l : MulLoop) :
    (mulIteration l).a = if (l.a <<< 1).toNat ≥ 0x10 then (l.a <<< 1) ^^^ 0x13#5 else l.a <<< 1 := rfl

theorem mulIteration_b (l : MulLoop) : (mulIteration l).b = l.b >>> 1 := rfl

theorem mulIteration_acc (l : MulLoop) :
    (mulIteration l).acc = if l.b.getLsbD 0 then l.acc ^^^ l.a else l.acc := rfl

theorem msb_eq_overflow (v : BitVec 5) : v.msb = decide (v.toNat ≥ 0x10) := BitVec.msb_eq_decide v

/-- The reduction takes the overflow away again (R103). -/
theorem mulIteration_inNibbles {l : MulLoop} (h : l.InNibbles) : (mulIteration l).InNibbles := by
  obtain ⟨ha, hacc⟩ := h
  constructor
  · rw [mulIteration_a]
    split
    · next hover => rw [BitVec.msb_xor, msb_eq_overflow, decide_eq_true hover]; rfl
    · next hover => exact (msb_eq_overflow _).trans (decide_eq_false hover)
  · rw [mulIteration_acc]
    split
    · rw [BitVec.msb_xor, hacc, ha]; rfl
    · exact hacc

/-- Shifting `a` and reducing it is multiplication by `x`, whether or not it overflows. -/
theorem loopElement_mulIteration_a {l : MulLoop} (h : l.a.msb = false) :
    loopElement (mulIteration l).a = fieldX * loopElement l.a := by
  rw [← loopElement_shiftLeft h, mulIteration_a]
  split
  · rw [loopElement_xor, loopElement_fieldPoly, add_zero]
  · rfl

theorem loopElement_mulIteration_acc (l : MulLoop) :
    loopElement (mulIteration l).acc = loopElement l.acc + bitElement (l.b.getLsbD 0) * loopElement l.a := by
  rw [mulIteration_acc]
  cases l.b.getLsbD 0 <;> simp [loopElement_xor]

/-- One iteration moves `b`'s lowest term from the product to the accumulator. -/
theorem mulIteration_element {l : MulLoop} (h : l.InNibbles) : (mulIteration l).element = l.element := by
  rw [MulLoop.element, MulLoop.element, loopElement_mulIteration_a h.1, loopElement_mulIteration_acc, mulIteration_b,
    loopElement_shiftRight l.b]
  ring

theorem mulLoop_invariant (k : Nat) {l : MulLoop} (h : l.InNibbles) :
    (mulLoop k l).InNibbles ∧ (mulLoop k l).element = l.element := by
  induction k generalizing l with
  | zero => exact ⟨h, rfl⟩
  | succ k ih =>
    obtain ⟨hin, helem⟩ := ih (mulIteration_inNibbles h)
    exact ⟨hin, helem.trans (mulIteration_element h)⟩

theorem mulLoop_b (k : Nat) (l : MulLoop) : (mulLoop k l).b = l.b >>> k := by
  induction k generalizing l with
  | zero => exact (BitVec.ushiftRight_zero l.b).symm
  | succ k ih =>
    rw [mulLoop, ih, Nat.add_comm, BitVec.shiftRight_add, mulIteration_b]

/-- The mask and the narrowing lose nothing of an accumulator that is a nibble (R103). -/
theorem element_masked {v : BitVec 5} (h : v.msb = false) : element ((v &&& 0xF#5).setWidth 4) = loopElement v := by
  simp [element_eq_loopElement, loopElement, Finset.sum_range_succ, topBit_of_msb h]

theorem msb_setWidth_nibble : ∀ a : Nibble, (a.setWidth 5).msb = false := by decide

/-- Four shifts use up a nibble. -/
theorem setWidth_nibble_shiftRight : ∀ b : Nibble, b.setWidth 5 >>> 4 = 0#5 := by decide

/-- `gf_mul` multiplies in the field. -/
theorem element_gfMul (a b : Nibble) : element (gfMul a b) = element a * element b := by
  have hstart : MulLoop.InNibbles ⟨a.setWidth 5, b.setWidth 5, 0#5⟩ := ⟨msb_setWidth_nibble a, BitVec.msb_zero⟩
  obtain ⟨⟨-, hacc⟩, helem⟩ := mulLoop_invariant 4 hstart
  rw [MulLoop.element, mulLoop_b, setWidth_nibble_shiftRight] at helem
  rw [gfMul, element_masked hacc, element_eq_loopElement, element_eq_loopElement]
  simpa [MulLoop.element] using helem

/-! ### The product modulo x⁴+x+1, and the laws -/

/-- Equal elements have equal remainders, and a nibble's polynomial is its own. -/
theorem poly_eq_modByMonic_of_element {a : Nibble} {p : Polynomial (ZMod 2)}
    (h : element a = AdjoinRoot.mk fieldPoly p) : poly a = p %ₘ fieldPoly := by
  rw [← poly_modByMonic a]
  exact Polynomial.modByMonic_eq_of_dvd_sub fieldPoly_monic (AdjoinRoot.mk_eq_mk.1 h)

/-- Settles O35: `gf_mul` multiplies in the quotient ring. -/
theorem gfMulIsTheProductModuloTheFieldPolynomial : Obligations.GfMulIsTheProductModuloTheFieldPolynomial := by
  unfold Obligations.GfMulIsTheProductModuloTheFieldPolynomial
  intro a b
  refine poly_eq_modByMonic_of_element ((element_gfMul a b).trans ?_)
  exact (map_mul _ _ _).symm

theorem element_injective : Function.Injective element := fun _ b h =>
  poly_injective ((poly_eq_modByMonic_of_element h).trans (poly_modByMonic b))

theorem element_xor (a b : Nibble) : element (a ^^^ b) = element a + element b := by
  simp only [element_eq_loopElement, BitVec.setWidth_xor, loopElement_xor]

theorem element_zero : element 0#4 = 0 := by simp [element_eq_loopElement]

theorem element_one : element 1#4 = 1 := by simp [element_eq_loopElement, loopElement, Finset.sum_range_succ]

theorem gfMul_comm (a b : Nibble) : gfMul a b = gfMul b a :=
  element_injective (by simp only [element_gfMul, mul_comm])

theorem gfMul_assoc (a b c : Nibble) : gfMul (gfMul a b) c = gfMul a (gfMul b c) :=
  element_injective (by simp only [element_gfMul, mul_assoc])

theorem gfMul_xor (a b c : Nibble) : gfMul a (b ^^^ c) = gfMul a b ^^^ gfMul a c :=
  element_injective (by simp only [element_gfMul, element_xor, mul_add])

@[simp] theorem gfMul_zero (a : Nibble) : gfMul a 0#4 = 0#4 :=
  element_injective (by simp only [element_gfMul, element_zero, mul_zero])

@[simp] theorem gfMul_one (a : Nibble) : gfMul a 1#4 = a :=
  element_injective (by simp only [element_gfMul, element_one, mul_one])

/-- The inverses R106 lists. -/
theorem exists_gfMul_eq_one : ∀ a : Nibble, a ≠ 0#4 → ∃ b, gfMul a b = 1#4 := by decide

/-- A nonzero factor can be divided out. -/
theorem gfMul_left_cancel {a b c : Nibble} (ha : a ≠ 0#4) (h : gfMul a b = gfMul a c) : b = c := by
  obtain ⟨a', ha'⟩ := exists_gfMul_eq_one a ha
  have hcancel (d : Nibble) : gfMul a' (gfMul a d) = d := by
    rw [← gfMul_assoc, gfMul_comm a', ha', gfMul_comm, gfMul_one]
  rw [← hcancel b, h, hcancel]

theorem gfMul_eq_zero {a b : Nibble} (h : gfMul a b = 0#4) : a = 0#4 ∨ b = 0#4 :=
  or_iff_not_imp_left.2 fun ha => gfMul_left_cancel ha (h.trans (gfMul_zero a).symm)

theorem existsUnique_gfMul_eq_one {a : Nibble} (ha : a ≠ 0#4) : ∃! b, gfMul a b = 1#4 :=
  existsUnique_of_exists_of_unique (exists_gfMul_eq_one a ha) fun _ _ h h' => gfMul_left_cancel ha (h.trans h'.symm)

/-- The fifteen powers of 2 are R106's list of the nonzero nibbles. -/
theorem exists_gfMul_two_iterate : ∀ a : Nibble, a ≠ 0#4 → ∃ n < 15, (gfMul 2#4)^[n] 1#4 = a := by decide

/-- Settles O37: the laws of the quotient ring carry over, and the sixteen nibbles are looked through for inverses and for
powers of 2. -/
theorem gfMulFieldLaws : Obligations.GfMulFieldLaws := by
  unfold Obligations.GfMulFieldLaws
  exact ⟨gfMul_comm, fun a => ⟨gfMul_zero a, gfMul_one a⟩, gfMul_assoc, gfMul_xor, fun _ _ => gfMul_eq_zero,
    fun _ => existsUnique_gfMul_eq_one, exists_gfMul_two_iterate⟩

/-! ### The gate network -/

/-- Coefficient `k` of the unreduced product, R108's `d[k]`. -/
def productBit (a b : Nibble) (k : Nat) : Bool :=
  ((List.range 4).map fun i => i ≤ k && (a.getLsbD i && b.getLsbD (k - i))).foldl xor false

/-- R108's outputs `c[3]` to `c[0]`. -/
def gateNetwork (a b : Nibble) : Nibble :=
  let d := productBit a b
  BitVec.ofBool (d 3 ^^ d 6) ++ BitVec.ofBool (d 2 ^^ d 5 ^^ d 6) ++ BitVec.ofBool (d 1 ^^ d 4 ^^ d 5) ++
    BitVec.ofBool (d 0 ^^ d 4)

theorem getLsbD_gateNetwork (a b : Nibble) :
    (gateNetwork a b).getLsbD 0 = (productBit a b 0 ^^ productBit a b 4) ∧
      (gateNetwork a b).getLsbD 1 = (productBit a b 1 ^^ productBit a b 4 ^^ productBit a b 5) ∧
      (gateNetwork a b).getLsbD 2 = (productBit a b 2 ^^ productBit a b 5 ^^ productBit a b 6) ∧
      (gateNetwork a b).getLsbD 3 = (productBit a b 3 ^^ productBit a b 6) := by
  simp only [gateNetwork, BitVec.getLsbD_append]
  simp

theorem element_eq_bits (a : Nibble) :
    element a = bitElement (a.getLsbD 0) + bitElement (a.getLsbD 1) * fieldX + bitElement (a.getLsbD 2) * fieldX ^ 2 +
      bitElement (a.getLsbD 3) * fieldX ^ 3 := by
  simp [element_eq_loopElement, loopElement, Finset.sum_range_succ]

/-- The product before any reduction. -/
theorem element_mul_element (a b : Nibble) :
    element a * element b = ∑ k ∈ Finset.range 7, bitElement (productBit a b k) * fieldX ^ k := by
  simp [element_eq_bits, productBit, bitElement_xor, bitElement_and, Finset.sum_range_succ, List.range_succ]
  ring

/-- The network reduces with x⁴ = x+1, x⁵ = x²+x and x⁶ = x³+x² (R108). -/
theorem element_gateNetwork (a b : Nibble) : element (gateNetwork a b) = element a * element b := by
  obtain ⟨h0, h1, h2, h3⟩ := getLsbD_gateNetwork a b
  rw [element_mul_element, element_eq_bits, h0, h1, h2, h3]
  simp only [bitElement_xor, Finset.sum_range_succ, Finset.sum_range_zero]
  linear_combination (-(bitElement (productBit a b 4) + bitElement (productBit a b 5) * fieldX +
    bitElement (productBit a b 6) * fieldX ^ 2)) * fieldX_pow_four

/-- Settles O36: the network and `gf_mul` give the same element of the field. -/
theorem gfMulIsTheGateNetwork : Obligations.GfMulIsTheGateNetwork := by
  unfold Obligations.GfMulIsTheGateNetwork
  intro a b
  rw [element_injective ((element_gfMul a b).trans (element_gateNetwork a b).symm)]
  exact getLsbD_gateNetwork a b

end Sys2Proof.Machine

/-! PROOFS, state packing family. The two directions of the column-major packing undo each other (R121 to R123); NOP, and
the commands that move 16-bit values into and out of the CORE. -/

namespace Sys2Proof.Machine
open Sys2Proof.Claims

/-! ### The packing -/

theorem getLsbD_stateToInt (m : Matrix) (n : Nat) :
    (stateToInt m).getLsbD n =
      if n < 4 then m.m11.getLsbD n else if n < 8 then m.m01.getLsbD (n - 4)
      else if n < 12 then m.m10.getLsbD (n - 8) else m.m00.getLsbD (n - 12) := by
  simp only [stateToInt, BitVec.getLsbD_append]
  grind

/-- The `<<` and `|` form of R122. -/
theorem stateToInt_eq_or_shifts (m : Matrix) :
    stateToInt m =
      (m.m00.setWidth 16 <<< 12) ||| (m.m10.setWidth 16 <<< 8) ||| (m.m01.setWidth 16 <<< 4) ||| m.m11.setWidth 16 := by
  apply BitVec.eq_of_getLsbD_eq
  intro n hn
  simp only [getLsbD_stateToInt, BitVec.getLsbD_or, BitVec.getLsbD_shiftLeft, BitVec.getLsbD_setWidth]
  grind

/-- Four neighbouring fields side by side are the integer again (R123). -/
@[simp] theorem stateToInt_intToState (x : Block) : stateToInt (intToState x) = x := by
  simp only [stateToInt, intToState, BitVec.extractLsb'_append_extractLsb'_eq_extractLsb' (show 12 = 8 + 4 from rfl),
    BitVec.extractLsb'_append_extractLsb'_eq_extractLsb' (show 8 = 4 + 4 from rfl),
    BitVec.extractLsb'_append_extractLsb'_eq_extractLsb' (show 4 = 0 + 4 from rfl)]
  exact BitVec.extractLsb'_eq_self

/-- Each field of the packed integer is the nibble put there (R123). -/
@[simp] theorem intToState_stateToInt (m : Matrix) : intToState (stateToInt m) = m := by
  obtain ⟨m00, m10, m01, m11⟩ := m
  simp only [intToState, Matrix.mk.injEq]
  refine ⟨?_, ?_, ?_, ?_⟩ <;>
  · apply BitVec.eq_of_getLsbD_eq
    intro n hn
    simp only [BitVec.getLsbD_extractLsb', getLsbD_stateToInt]
    grind

/-- Settles O38: the fields by definition, the integer form and the two round trips from above. -/
theorem packingIsColumnMajorAndLossless : Obligations.PackingIsColumnMajorAndLossless := by
  unfold Obligations.PackingIsColumnMajorAndLossless
  exact ⟨fun _ => ⟨rfl, rfl, rfl, rfl⟩, stateToInt_eq_or_shifts, stateToInt_intToState, intToState_stateToInt⟩

/-! ### Reserved words of one opcode, and faults by the word -/

/-- A command without operands has no bit to spare below its opcode (R71, R78). -/
theorem reservedExactly_noOperand {op : BitVec 4} (h : op ∈ [0x0#4, 0x3#4, 0x6#4, 0x7#4, 0x8#4, 0xA#4, 0xB#4]) :
    reservedExactly op fun w => w.extractLsb' 0 20 ≠ 0#20 := by
  intro w hop
  refine (decode_eq_reservedField_iff w).trans ?_
  simp only [List.mem_cons, List.not_mem_nil, or_false] at h
  rcases h with rfl | rfl | rfl | rfl | rfl | rfl | rfl <;> simp [reservedBits, hop]

/-- A load leaves the index field 0 and may have any immediate (R71, R78). -/
theorem reservedExactly_load {op : BitVec 4} (h : op ∈ [0x1#4, 0x2#4]) :
    reservedExactly op fun w => w.extractLsb' 16 4 ≠ 0#4 := by
  intro w hop
  have hidx : (w.extractLsb' 16 4).toNat ≠ 0 ↔ w.extractLsb' 16 4 ≠ 0#4 := not_congr (BitVec.toNat_inj (y := 0#4))
  refine (decode_eq_reservedField_iff w).trans (Iff.trans ?_ hidx)
  simp only [List.mem_cons, List.not_mem_nil, or_false] at h
  rcases h with rfl | rfl <;> simp [reservedBits, hop]

/-- A command with a key index takes the three keys and no immediate (R71, R78). -/
theorem reservedExactly_keyIndex {op : BitVec 4} (h : op ∈ [0x4#4, 0x5#4]) :
    reservedExactly op fun w => 2 < (w.extractLsb' 16 4).toNat ∨ w.extractLsb' 0 16 ≠ 0#16 := by
  intro w hop
  refine (decode_eq_reservedField_iff w).trans ?_
  simp only [List.mem_cons, List.not_mem_nil, or_false] at h
  rcases h with rfl | rfl <;> simp [reservedBits, hop]

/-- A missing source, as the fault record R233 writes. -/
theorem exec_eq_faulted_of_source_missing {i : Instr} {s : State} (hf : s.flt = false) (hwf : i.wellFormed = true)
    (hs : sourcesValid i s = false) : exec i s = .next (faulted .invalidSource (encode i) s) :=
  exec_of_source_missing hf hwf hs

/-! ### NOP and the loads -/

/-- Settles O20: faulted or not, the state stays. -/
theorem nopChangesNothing : Obligations.NopChangesNothing := by
  unfold Obligations.NopChangesNothing
  exact ⟨fun _ => execNop_next.2 rfl, decode_encode (i := .nop) rfl, reservedExactly_noOperand (by decide)⟩

/-- Settles O21, from what LDS answers and the words of a load. -/
theorem ldsLoadsTheState : Obligations.LdsLoadsTheState := by
  unfold Obligations.LdsLoadsTheState
  exact ⟨fun imm16 _ hs => (execLds_next imm16).2 (.inr ⟨hs, rfl⟩), fun imm16 => decode_encode (i := .lds imm16) rfl,
    reservedExactly_load (by decide)⟩

/-- Settles O22, from what LDK answers and the words of a load. -/
theorem ldkLoadsTheKeyAndEmptiesTheRoundKeys : Obligations.LdkLoadsTheKeyAndEmptiesTheRoundKeys := by
  unfold Obligations.LdkLoadsTheKeyAndEmptiesTheRoundKeys
  exact ⟨fun imm16 _ hs => (execLdk_next imm16).2 (.inr ⟨hs, rfl⟩), fun imm16 => decode_encode (i := .ldk imm16) rfl,
    reservedExactly_load (by decide)⟩

/-! ### The reads -/

/-- Settles O23: S empty or not. -/
theorem rdsReadsTheState : Obligations.RdsReadsTheState := by
  unfold Obligations.RdsReadsTheState
  refine ⟨fun s m hs hm => execRds_next.2 (.inr ⟨hs, .inr ⟨m, hm, rfl⟩⟩), fun s hs hm => ?_,
    decode_encode (i := .rds) rfl, reservedExactly_noOperand (by decide)⟩
  exact exec_eq_faulted_of_source_missing (i := .rds) hs rfl (by simp [sourcesValid, State.vs, hm])

theorem wellFormed_rdk_keyField (k : KeyIndex) : (Instr.rdk (keyField k)).wellFormed = true := by
  cases k <;> rfl

/-- RDK on a key that holds a value (R130). -/
theorem exec_rdk_of_key_valid {k : KeyIndex} {s : State} {q : Matrix} (hs : s.flt = false) (hq : s.key k = some q) :
    exec (.rdk (keyField k)) s = .next { s with dout := some (stateToInt q) } :=
  (execRdk_next _).2 (.inr ⟨hs, .inr ⟨k, keyIndexOf_keyField k, .inr ⟨q, hq, rfl⟩⟩⟩)

/-- RDK on an empty key (R130). -/
theorem exec_rdk_of_key_empty {k : KeyIndex} {s : State} (hs : s.flt = false) (hq : s.key k = none) :
    exec (.rdk (keyField k)) s = .next (faulted .invalidSource (encode (.rdk (keyField k))) s) :=
  exec_eq_faulted_of_source_missing hs (wellFormed_rdk_keyField k) (by simp [sourcesValid, hq])

/-- Settles O24: one rule for a key with a value and one for an empty key, at each of the three indices. -/
theorem rdkReadsARoundKey : Obligations.RdkReadsARoundKey := by
  unfold Obligations.RdkReadsARoundKey
  refine ⟨fun s q hs => ⟨?_, ?_, ?_⟩, fun s hs => ⟨?_, ?_, ?_⟩,
    fun k => decode_encode (i := .rdk (keyField k)) (wellFormed_rdk_keyField k), reservedExactly_keyIndex (by decide)⟩
  · exact exec_rdk_of_key_valid (k := .k0) hs
  · exact exec_rdk_of_key_valid (k := .k1) hs
  · exact exec_rdk_of_key_valid (k := .k2) hs
  · exact exec_rdk_of_key_empty (k := .k0) hs
  · exact exec_rdk_of_key_empty (k := .k1) hs
  · exact exec_rdk_of_key_empty (k := .k2) hs

end Sys2Proof.Machine

/-! PROOFS, round transforms family. Each transform nibble by nibble, and the commands that apply it
(42_round_transforms.md); mix-columns and its inverse are two cases of one columnwise product, whose products and sums are those of the field. -/

namespace Sys2Proof.Machine
open Sys2Proof.Claims

/-! ### The transforms, nibble by nibble -/

/-- A matrix is its four nibbles (R14). -/
theorem eq_of_nib_eq {m n : Matrix} (h : ∀ r c, nib m r c = nib n r c) : m = n := by
  obtain ⟨m00, m10, m01, m11⟩ := m
  obtain ⟨n00, n10, n01, n11⟩ := n
  obtain rfl : m00 = n00 := h 0 0
  obtain rfl : m10 = n10 := h 1 0
  obtain rfl : m01 = n01 := h 0 1
  obtain rfl : m11 = n11 := h 1 1
  rfl

@[simp] theorem nib_addRoundKey (m q : Matrix) (r c : Fin 2) : nib (addRoundKey m q) r c = nib m r c ^^^ nib q r c := by
  fin_cases r <;> fin_cases c <;> rfl

@[simp] theorem nib_substituteNibbles (roms : Roms) (m : Matrix) (r c : Fin 2) :
    nib (substituteNibbles roms m) r c = roms.sbox (nib m r c) := by
  fin_cases r <;> fin_cases c <;> rfl

theorem nib_mixColumns_row0 (m : Matrix) (c : Fin 2) :
    nib (mixColumns m) 0 c = gfMul 1#4 (nib m 0 c) ^^^ gfMul 4#4 (nib m 1 c) := by
  fin_cases c <;> rfl

theorem nib_mixColumns_row1 (m : Matrix) (c : Fin 2) :
    nib (mixColumns m) 1 c = gfMul 4#4 (nib m 0 c) ^^^ gfMul 1#4 (nib m 1 c) := by
  fin_cases c <;> rfl

/-! ### ARK -/

theorem wellFormed_ark_keyField (k : KeyIndex) : (Instr.ark (keyField k)).wellFormed = true := by
  cases k <;> rfl

theorem exec_ark_of_sources {k : KeyIndex} {s : State} {m q : Matrix} (hs : s.flt = false) (hm : s.s = some m)
    (hq : s.key k = some q) : exec (.ark (keyField k)) s = .next { s with s := some (addRoundKey m q) } :=
  (execArk_next _).2 (.inr ⟨hs, .inr ⟨k, keyIndexOf_keyField k, .inr ⟨m, hm, .inr ⟨q, hq, rfl⟩⟩⟩⟩)

/-- Either register empty is a missing source of ARK (R145). -/
theorem sourcesValid_ark_eq_false {k : KeyIndex} {s : State} (h : s.s = none ∨ s.key k = none) :
    sourcesValid (.ark (keyField k)) s = false := by
  rcases h with h | h <;> simp [sourcesValid, State.vs, h]

/-- Settles O25, from what ARK answers and the words of a command with a key index. -/
theorem arkAddsARoundKey : Obligations.ArkAddsARoundKey := by
  unfold Obligations.ArkAddsARoundKey
  refine ⟨fun k s m q hs hm hq => ⟨addRoundKey m q, exec_ark_of_sources hs hm hq, nib_addRoundKey m q⟩,
    fun k s hs h => ?_, fun k => decode_encode (i := .ark (keyField k)) (wellFormed_ark_keyField k),
    reservedExactly_keyIndex (by decide)⟩
  exact exec_eq_faulted_of_source_missing hs (wellFormed_ark_keyField k) (sourcesValid_ark_eq_false h)

/-! ### SUB, SHR and MIX -/

/-- The three transforms that read S alone fault when S is empty (R148, R152, R157). -/
theorem exec_transform_of_state_empty {i : Instr} {s : State} (hi : i = .sub ∨ i = .shr ∨ i = .mix)
    (hs : s.flt = false) (hm : s.s = none) : exec i s = .next (faulted .invalidSource (encode i) s) := by
  rcases hi with rfl | rfl | rfl <;>
    exact exec_eq_faulted_of_source_missing hs rfl (by simp [sourcesValid, State.vs, hm])

/-- Settles O26, for whatever S-box the machine has. -/
theorem subSubstitutesEveryNibble : Obligations.SubSubstitutesEveryNibble := by
  unfold Obligations.SubSubstitutesEveryNibble
  exact ⟨fun s m hs hm => ⟨substituteNibbles theRoms m, execSub_next.2 (.inr ⟨hs, .inr ⟨m, hm, rfl⟩⟩),
      nib_substituteNibbles theRoms m⟩,
    fun s hs hm => exec_transform_of_state_empty (i := .sub) (by simp) hs hm,
    decode_encode (i := .sub) rfl, reservedExactly_noOperand (by decide)⟩

/-- Settles O28: the four nibbles of `shiftRows` are those of its definition. -/
theorem shrSwapsTheSecondRow : Obligations.ShrSwapsTheSecondRow := by
  unfold Obligations.ShrSwapsTheSecondRow
  exact ⟨fun s m hs hm => ⟨shiftRows m, execShr_next.2 (.inr ⟨hs, .inr ⟨m, hm, rfl⟩⟩), rfl, rfl, rfl, rfl⟩,
    fun s hs hm => exec_transform_of_state_empty (i := .shr) (by simp) hs hm,
    decode_encode (i := .shr) rfl, reservedExactly_noOperand (by decide)⟩

/-- Settles O29, column by column. -/
theorem mixMultipliesEachColumn : Obligations.MixMultipliesEachColumn := by
  unfold Obligations.MixMultipliesEachColumn
  exact ⟨fun s m hs hm => ⟨mixColumns m, execMix_next.2 (.inr ⟨hs, .inr ⟨m, hm, rfl⟩⟩),
      fun c => ⟨nib_mixColumns_row0 m c, nib_mixColumns_row1 m c⟩⟩,
    fun s hs hm => exec_transform_of_state_empty (i := .mix) (by simp) hs hm,
    decode_encode (i := .mix) rfl, reservedExactly_noOperand (by decide)⟩

/-! ### SBX -/

theorem exec_sbx_of_running (a : Nibble) {s : State} (hs : s.flt = false) :
    exec (.sbx a) s = .next { s with dout := some (0#12 ++ theRoms.sbox a) } := by
  rw [← zext16_nibble]
  exact (execSbx_next a).2 (.inr ⟨hs, rfl⟩)

/-- The format of opcode 0xD: the word `0xD0000a` (R149). -/
theorem encode_sbx (a : Nibble) : encode (.sbx a) = 0xD0000#20 ++ a := by
  rw [show 0xD0000#20 = 0xD#4 ++ 0#4 ++ 0#12 from rfl]
  apply BitVec.eq_of_getLsbD_eq
  intro n hn
  simp only [encode, assembleFields, BitVec.getLsbD_append]
  grind

/-- Settles O27, for whatever S-box the machine has. -/
theorem sbxReadsOneEntry : Obligations.SbxReadsOneEntry := by
  unfold Obligations.SbxReadsOneEntry
  refine ⟨fun a _ hs => exec_sbx_of_running a hs, fun a => ?_, fun w hop => ?_⟩
  · rw [← encode_sbx]
    exact decode_encode rfl
  · rw [decode_eq_reservedField_iff]
    simp [reservedBits, hop]

/-! ### Key addition and shift-rows on integers -/

/-- The nibbles stand side by side in the integer, so it takes the exclusive-or of all four at once (R141). -/
theorem stateToInt_addRoundKey (m q : Matrix) : stateToInt (addRoundKey m q) = stateToInt m ^^^ stateToInt q := by
  simp only [stateToInt, addRoundKey, ← BitVec.xor_append]

/-- Adding a key twice cancels it (R141). -/
theorem addRoundKey_addRoundKey_self (m q : Matrix) : addRoundKey (addRoundKey m q) q = m :=
  eq_of_nib_eq fun r c => by simp

theorem addRoundKey_comm (m q : Matrix) : addRoundKey m q = addRoundKey q m :=
  eq_of_nib_eq fun r c => by simp [BitVec.xor_comm]

theorem shiftRows_shiftRows (m : Matrix) : shiftRows (shiftRows m) = m := rfl

/-- The second and the fourth hexadecimal digit change places (R151). -/
theorem stateToInt_shiftRows (m : Matrix) :
    stateToInt (shiftRows m) =
      (stateToInt m).extractLsb' 12 4 ++ (stateToInt m).extractLsb' 0 4 ++ (stateToInt m).extractLsb' 4 4 ++
        (stateToInt m).extractLsb' 8 4 := by
  calc stateToInt (shiftRows m)
    _ = stateToInt (shiftRows (intToState (stateToInt m))) := by rw [intToState_stateToInt]
    _ = _ := rfl

/-- Settles O39. -/
theorem keyAdditionAndShiftRowsOnIntegers : Obligations.KeyAdditionAndShiftRowsOnIntegers := by
  unfold Obligations.KeyAdditionAndShiftRowsOnIntegers
  exact ⟨fun m q => ⟨stateToInt_addRoundKey m q, addRoundKey_addRoundKey_self m q, addRoundKey_comm m q⟩,
    fun m => ⟨shiftRows_shiftRows m, stateToInt_shiftRows m⟩⟩

/-! ### Mix-columns -/

/-- The columnwise product with `[[a,b],[b,a]]`, of which R153 and R160 use two. -/
def columnProduct (a b : Nibble) (m : Matrix) : Matrix where
  m00 := gfMul a m.m00 ^^^ gfMul b m.m10
  m10 := gfMul b m.m00 ^^^ gfMul a m.m10
  m01 := gfMul a m.m01 ^^^ gfMul b m.m11
  m11 := gfMul b m.m01 ^^^ gfMul a m.m11

theorem mixColumns_eq_columnProduct (m : Matrix) : mixColumns m = columnProduct 1#4 4#4 m := rfl

theorem unmixColumns_eq_columnProduct (m : Matrix) : unmixColumns m = columnProduct 9#4 2#4 m := rfl

/-- In either row: `a` times the nibble at the place itself, plus `b` times the one in the other row. -/
theorem nib_columnProduct (a b : Nibble) (m : Matrix) (r c : Fin 2) :
    nib (columnProduct a b m) r c = gfMul a (nib m r c) ^^^ gfMul b (nib m r.rev c) := by
  fin_cases r
  · fin_cases c <;> rfl
  · rw [BitVec.xor_comm]
    fin_cases c <;> rfl

/-- Two column products in a row are the one with the product of the two matrices. -/
theorem columnProduct_columnProduct (a b a' b' : Nibble) (m : Matrix) :
    columnProduct a' b' (columnProduct a b m) =
      columnProduct (gfMul a' a ^^^ gfMul b' b) (gfMul a' b ^^^ gfMul b' a) m := by
  refine eq_of_nib_eq fun r c => element_injective ?_
  simp only [nib_columnProduct, Fin.rev_rev, element_gfMul, element_xor]
  ring

/-- The product distributes over the sum of matrices (R156). -/
theorem columnProduct_addRoundKey (a b : Nibble) (m q : Matrix) :
    columnProduct a b (addRoundKey m q) = addRoundKey (columnProduct a b m) (columnProduct a b q) := by
  refine eq_of_nib_eq fun r c => element_injective ?_
  simp only [nib_columnProduct, nib_addRoundKey, element_gfMul, element_xor]
  ring

/-- With a diagonal matrix every nibble is multiplied by itself alone. -/
theorem nib_columnProduct_diagonal (a : Nibble) (m : Matrix) (r c : Fin 2) :
    nib (columnProduct a 0#4 m) r c = gfMul a (nib m r c) := by
  rw [nib_columnProduct, gfMul_comm 0#4, gfMul_zero, BitVec.xor_zero]

theorem columnProduct_one_zero (m : Matrix) : columnProduct 1#4 0#4 m = m :=
  eq_of_nib_eq fun r c => by rw [nib_columnProduct_diagonal, gfMul_comm, gfMul_one]

/-- `[[1,4],[4,1]]` squared is `[[2,0],[0,2]]` (R155). -/
theorem mixColumns_mixColumns (m : Matrix) : mixColumns (mixColumns m) = columnProduct 2#4 0#4 m :=
  columnProduct_columnProduct 1#4 4#4 1#4 4#4 m

/-- `[[9,2],[2,9]]` is the inverse matrix (R160). -/
theorem unmixColumns_mixColumns (m : Matrix) : unmixColumns (mixColumns m) = m :=
  (columnProduct_columnProduct 1#4 4#4 9#4 2#4 m).trans (columnProduct_one_zero m)

theorem mixColumns_unmixColumns (m : Matrix) : mixColumns (unmixColumns m) = m :=
  (columnProduct_columnProduct 9#4 2#4 1#4 4#4 m).trans (columnProduct_one_zero m)

/-- Settles O40, from the products of the matrices. -/
theorem mixColumnsAlgebra : Obligations.MixColumnsAlgebra := by
  unfold Obligations.MixColumnsAlgebra
  refine ⟨fun m r c => ?_, columnProduct_addRoundKey 1#4 4#4,
    fun m => ⟨unmixColumns_mixColumns m, mixColumns_unmixColumns m⟩⟩
  rw [mixColumns_mixColumns, nib_columnProduct_diagonal]

end Sys2Proof.Machine

/-! PROOFS, key schedule family. `g` and the expansion step on columns, nibbles and bytes (43_key_schedule.md); the commands
GFN, KEXP and KSCH, and the agreement of KSCH with the two single steps. -/

namespace Sys2Proof.Machine
open Sys2Proof.Claims

/-! ### Words as bytes -/

theorem byteOfWord_xorWord (v w : HalfKey) : byteOfWord (xorWord v w) = byteOfWord v ^^^ byteOfWord w :=
  BitVec.xor_append.symm

theorem wordOfByte_append (n0 n1 : Nibble) : wordOfByte (n0 ++ n1) = ⟨n0, n1⟩ := by
  simp only [wordOfByte, BitVec.extractLsb'_append_eq_left, BitVec.extractLsb'_append_eq_right]

@[simp] theorem wordOfByte_byteOfWord (w : HalfKey) : wordOfByte (byteOfWord w) = w :=
  wordOfByte_append w.n0 w.n1

/-- The high byte of the packed matrix is column 0 and the low byte column 1 (R176). -/
theorem stateToInt_eq_columns (q : Matrix) : stateToInt q = byteOfWord (columnZero q) ++ byteOfWord (columnOne q) :=
  BitVec.append_assoc

theorem highByte_stateToInt (q : Matrix) : (stateToInt q).extractLsb' 8 8 = byteOfWord (columnZero q) := by
  rw [stateToInt_eq_columns, BitVec.extractLsb'_append_eq_left]

theorem lowByte_stateToInt (q : Matrix) : (stateToInt q).extractLsb' 0 8 = byteOfWord (columnOne q) := by
  rw [stateToInt_eq_columns, BitVec.extractLsb'_append_eq_right]

/-! ### The expansion step -/

/-- `g` on a byte: the constant's byte plus the substituted nibbles in swapped order (R174). -/
theorem byteOfWord_g_wordOfByte (roms : Roms) (b : BitVec 8) (r : Round) :
    byteOfWord (g roms (wordOfByte b) r) =
      (roms.sbox (b.extractLsb' 0 4) ++ roms.sbox (b.extractLsb' 4 4)) ^^^ byteOfWord (roms.rcon r) :=
  byteOfWord_xorWord _ _

/-- `w2 = w0 ^ g(w1)` (R175). -/
theorem columnZero_expandKey (roms : Roms) (q : Matrix) (r : Round) :
    columnZero (expandKey roms q r) = xorWord (columnZero q) (g roms (columnOne q) r) := rfl

/-- `w3 = w2 ^ w1` (R175). -/
theorem columnOne_expandKey (roms : Roms) (q : Matrix) (r : Round) :
    columnOne (expandKey roms q r) = xorWord (columnZero (expandKey roms q r)) (columnOne q) := rfl

/-- R175 nibble by nibble. -/
theorem expandKey_nibbles (roms : Roms) (q : Matrix) (r : Round) :
    (expandKey roms q r).m00 = q.m00 ^^^ roms.sbox q.m11 ^^^ (roms.rcon r).n0 ∧
      (expandKey roms q r).m10 = q.m10 ^^^ roms.sbox q.m01 ^^^ (roms.rcon r).n1 ∧
      (expandKey roms q r).m01 = (expandKey roms q r).m00 ^^^ q.m01 ∧
      (expandKey roms q r).m11 = (expandKey roms q r).m10 ^^^ q.m11 :=
  ⟨(BitVec.xor_assoc ..).symm, (BitVec.xor_assoc ..).symm, rfl, rfl⟩

/-- Settles O41: the columns of the next key, each read as a byte. -/
theorem expandKeyOnBytes : Obligations.ExpandKeyOnBytes := by
  unfold Obligations.ExpandKeyOnBytes
  rintro roms q r w0 w1 c hw0 hw1 rfl
  rw [highByte_stateToInt] at hw0
  rw [lowByte_stateToInt] at hw1
  have hcolumn : columnOne q = wordOfByte w1 := by rw [hw1, wordOfByte_byteOfWord]
  refine ⟨byteOfWord (columnZero (expandKey roms q r)), ?_, ?_⟩
  · rw [columnZero_expandKey, byteOfWord_xorWord, ← hw0, hcolumn, byteOfWord_g_wordOfByte, byteOfWord]
  · rw [stateToInt_eq_columns, columnOne_expandKey, byteOfWord_xorWord, hw1]

/-! ### KEXP -/

theorem exec_kexp_of_source_valid {r : Round} {s : State} {q : Matrix} (hs : s.flt = false)
    (hq : s.key (sourceKey r) = some q) :
    exec (.kexp (roundField r)) s = .next (s.writeKey (targetKey r) (expandKey theRoms q r)) :=
  (execKexp_next _).2 (.inr ⟨hs, .inr ⟨r, roundOf_roundField r, .inr ⟨q, hq, rfl⟩⟩⟩)

theorem exec_kexp_of_source_empty {r : Round} {s : State} (hs : s.flt = false) (hq : s.key (sourceKey r) = none) :
    exec (.kexp (roundField r)) s = .next (faulted .invalidSource (encode (.kexp (roundField r))) s) :=
  (execKexp_next _).2 (.inr ⟨hs, .inr ⟨r, roundOf_roundField r, .inl ⟨hq, rfl⟩⟩⟩)

theorem wellFormed_kexp_roundField (r : Round) : (Instr.kexp (roundField r)).wellFormed = true := by
  cases r <;> rfl

/-- KEXP takes the two round indices and no immediate (R71, R78). -/
theorem reservedExactly_kexp :
    reservedExactly 0x9#4 fun w => 1 < (w.extractLsb' 16 4).toNat ∨ w.extractLsb' 0 16 ≠ 0#16 := by
  intro w hop
  rw [decode_eq_reservedField_iff]
  simp [reservedBits, hop]

/-- Settles O30: one rule for a source key with a value and one for an empty one, at each of the two rounds. -/
theorem kexpExpandsOneStep : Obligations.KexpExpandsOneStep := by
  unfold Obligations.KexpExpandsOneStep
  refine ⟨fun s q hs => ?_, fun s q hs => ?_, fun roms q r => ⟨_, rfl, expandKey_nibbles roms q r⟩, fun s hs => ?_,
    fun s hs => ?_, decode_encode (wellFormed_kexp_roundField .first),
    decode_encode (wellFormed_kexp_roundField .second), reservedExactly_kexp⟩
  · exact exec_kexp_of_source_valid (r := .first) hs
  · exact exec_kexp_of_source_valid (r := .second) hs
  · exact exec_kexp_of_source_empty (r := .first) hs
  · exact exec_kexp_of_source_empty (r := .second) hs

/-! ### KSCH -/

theorem exec_ksch_of_key_valid {s : State} {q : Matrix} (hs : s.flt = false) (hq : s.k0 = some q) :
    exec .ksch s =
      .next ((s.writeKey .k1 (expandKey theRoms q .first)).writeKey .k2
        (expandKey theRoms (expandKey theRoms q .first) .second)) :=
  execKsch_next.2 (.inr ⟨hs, .inr ⟨q, hq, rfl⟩⟩)

theorem exec_ksch_of_key_empty {s : State} (hs : s.flt = false) (hq : s.k0 = none) :
    exec .ksch s = .next (faulted .invalidSource (encode .ksch) s) :=
  execKsch_next.2 (.inr ⟨hs, .inl ⟨hq, rfl⟩⟩)

/-- Settles O31, from what KSCH answers and the words of a command without operands. -/
theorem kschRunsBothSteps : Obligations.KschRunsBothSteps := by
  unfold Obligations.KschRunsBothSteps
  exact ⟨fun _ _ => exec_ksch_of_key_valid, fun _ => exec_ksch_of_key_empty, decode_encode (i := .ksch) rfl,
    reservedExactly_noOperand (by decide)⟩

/-- Settles O59: after KEXP 0, K[1] holds the first result, which KEXP 1 expands as KSCH's second step does (R177). -/
theorem kschAgreesWithBothKexps : Obligations.KschAgreesWithBothKexps := by
  unfold Obligations.KschAgreesWithBothKexps
  intro s q hs hq
  have hfirst : exec (.kexp 0#4) s = .next (s.writeKey .k1 (expandKey theRoms q .first)) :=
    exec_kexp_of_source_valid (r := .first) hs hq
  have hsecond : exec (.kexp 1#4) (s.writeKey .k1 (expandKey theRoms q .first)) =
      .next ((s.writeKey .k1 (expandKey theRoms q .first)).writeKey .k2
        (expandKey theRoms (expandKey theRoms q .first) .second)) :=
    exec_kexp_of_source_valid (r := .second) hs (s.writeKey_k1_k1 _)
  exact ⟨_, _, exec_ksch_of_key_valid hs hq, hfirst, hsecond, hs⟩

/-! ### GFN -/

theorem zext16_byte (v : BitVec 8) : zext16 v = 0#8 ++ v := BitVec.setWidth_eq_append (by decide)

/-- The value of `g` on an immediate word, in DOUT (R171, R179). -/
theorem exec_gfn_of_running (r : Round) (n0 n1 : Nibble) {s : State} (hs : s.flt = false) :
    exec (.gfn (roundField r) (n0 ++ n1)) s =
      .next { s with
        dout := some (0#8 ++ (theRoms.sbox n1 ^^^ (theRoms.rcon r).n0) ++ (theRoms.sbox n0 ^^^ (theRoms.rcon r).n1)) } := by
  refine (execGfn_next _ _).2 (.inr ⟨hs, .inr ⟨r, roundOf_roundField r, ?_⟩⟩)
  rw [wordOfByte_append, zext16_byte]
  exact congrArg s.writeDout BitVec.append_assoc

theorem wellFormed_gfn_roundField (r : Round) (w : BitVec 8) : (Instr.gfn (roundField r) w).wellFormed = true := by
  cases r <;> rfl

/-- The format of opcode 0xE: the word `0xEr00ww` (R179). -/
theorem encode_gfn (r : BitVec 4) (w : BitVec 8) : encode (.gfn r w) = 0xE#4 ++ r ++ 0#8 ++ w :=
  (BitVec.append_assoc (x₁ := 0xE#4 ++ r) (x₂ := 0#8) (x₃ := w)).symm

/-- GFN takes the two round indices and an immediate of one byte (R71, R78). -/
theorem reservedExactly_gfn :
    reservedExactly 0xE#4 fun w => 1 < (w.extractLsb' 16 4).toNat ∨ w.extractLsb' 8 8 ≠ 0#8 := by
  intro w hop
  rw [decode_eq_reservedField_iff]
  simp [reservedBits, hop]

/-- Settles O32, for whatever ROMs the machine has. -/
theorem gfnEvaluatesTheGFunction : Obligations.GfnEvaluatesTheGFunction := by
  unfold Obligations.GfnEvaluatesTheGFunction
  refine ⟨fun r n0 n1 s hs => exec_gfn_of_running r n0 n1 hs, fun r w => ?_, reservedExactly_gfn⟩
  rw [← encode_gfn]
  exact decode_encode (wellFormed_gfn_roundField r w)

end Sys2Proof.Machine

/-! PROOFS, cipher engine family (44_cipher_engine.md). The cipher as parts that are one to one for every key, around two
layers of S-boxes; ENC against its eight transforms, sent one at a time and read out after each. -/

namespace Sys2Proof.Machine
open Sys2Proof.Claims

/-! ### One to one exactly when the S-box is -/

theorem stateToInt_bijective : Function.Bijective stateToInt :=
  Function.bijective_iff_has_inverse.2 ⟨intToState, intToState_stateToInt, stateToInt_intToState⟩

theorem intToState_bijective : Function.Bijective intToState :=
  Function.bijective_iff_has_inverse.2 ⟨stateToInt, stateToInt_intToState, intToState_stateToInt⟩

theorem addRoundKey_bijective (q : Matrix) : Function.Bijective (addRoundKey · q) :=
  Function.Involutive.bijective fun m => addRoundKey_addRoundKey_self m q

theorem shiftRows_bijective : Function.Bijective shiftRows :=
  Function.Involutive.bijective shiftRows_shiftRows

theorem mixColumns_bijective : Function.Bijective mixColumns :=
  Function.bijective_iff_has_inverse.2 ⟨unmixColumns, unmixColumns_mixColumns, mixColumns_unmixColumns⟩

/-- Substituting back with an inverse S-box undoes the substitution. -/
theorem substituteNibbles_leftInverse {roms roms' : Roms} (h : Function.LeftInverse roms'.sbox roms.sbox) :
    Function.LeftInverse (substituteNibbles roms') (substituteNibbles roms) := fun m =>
  eq_of_nib_eq fun r c => by simp [h (nib m r c)]

theorem substituteNibbles_bijective {roms : Roms} (h : Function.Bijective roms.sbox) :
    Function.Bijective (substituteNibbles roms) := by
  obtain ⟨inv, hleft, hright⟩ := Function.bijective_iff_has_inverse.1 h
  exact Function.bijective_iff_has_inverse.2
    ⟨substituteNibbles { roms with sbox := inv }, substituteNibbles_leftInverse hleft,
      substituteNibbles_leftInverse hright⟩

/-- On matrices of four equal nibbles the substitution is the S-box. -/
theorem sbox_injective_of_substituteNibbles {roms : Roms} (h : Function.Injective (substituteNibbles roms)) :
    Function.Injective roms.sbox := by
  intro a b hab
  have hsub : substituteNibbles roms ⟨a, a, a, a⟩ = substituteNibbles roms ⟨b, b, b, b⟩ :=
    eq_of_nib_eq fun r c => by fin_cases r <;> fin_cases c <;> exact hab
  exact congrArg Matrix.m00 (h hsub)

/-- The cipher before its first layer of S-boxes: packing and the initial key addition (R190). -/
def beforeSboxes (q0 : Matrix) (p : Block) : Matrix := addRoundKey (intToState p) q0

/-- The cipher between its two layers of S-boxes: the rest of the full round (R190). -/
def betweenSboxes (q1 : Matrix) (m : Matrix) : Matrix := addRoundKey (mixColumns (shiftRows m)) q1

/-- The cipher after its second layer of S-boxes: the rest of the final round and the packing (R190). -/
def afterSboxes (q2 : Matrix) (m : Matrix) : Block := stateToInt (addRoundKey (shiftRows m) q2)

theorem beforeSboxes_bijective (q0 : Matrix) : Function.Bijective (beforeSboxes q0) :=
  (addRoundKey_bijective q0).comp intToState_bijective

theorem betweenSboxes_bijective (q1 : Matrix) : Function.Bijective (betweenSboxes q1) :=
  (addRoundKey_bijective q1).comp (mixColumns_bijective.comp shiftRows_bijective)

theorem afterSboxes_bijective (q2 : Matrix) : Function.Bijective (afterSboxes q2) :=
  stateToInt_bijective.comp ((addRoundKey_bijective q2).comp shiftRows_bijective)

/-- With the schedule written out (R177), the cipher is its three parts around the two layers of S-boxes. -/
theorem encrypt_eq_comp (roms : Roms) (key : Block) :
    (fun p => encrypt roms p key) =
      afterSboxes (expandKey roms (expandKey roms (intToState key) .first) .second) ∘ substituteNibbles roms ∘
        betweenSboxes (expandKey roms (intToState key) .first) ∘ substituteNibbles roms ∘
          beforeSboxes (intToState key) := rfl

/-- Settles O42: bijective parts around the S-boxes add and lose nothing; what is left is one to one only if its first
layer of S-boxes is. -/
theorem encryptIsBijectiveExactlyWhenTheSboxIs : Obligations.EncryptIsBijectiveExactlyWhenTheSboxIs := by
  unfold Obligations.EncryptIsBijectiveExactlyWhenTheSboxIs
  intro roms key
  rw [encrypt_eq_comp, Function.Bijective.of_comp_iff' (afterSboxes_bijective _)]
  constructor
  · intro h
    have hfirst : Function.Injective (substituteNibbles roms ∘ beforeSboxes (intToState key)) :=
      h.injective.of_comp.of_comp
    have hsub : Function.Injective (substituteNibbles roms) :=
      hfirst.of_comp_right (beforeSboxes_bijective _).surjective
    exact Finite.injective_iff_bijective.1 (sbox_injective_of_substituteNibbles hsub)
  · intro h
    have hsub := substituteNibbles_bijective h
    exact hsub.comp ((betweenSboxes_bijective _).comp (hsub.comp (beforeSboxes_bijective _)))

/-! ### The command ENC -/

theorem exec_enc_of_sources {s : State} {p q0 q1 q2 : Matrix} (hs : s.flt = false) (hp : s.s = some p)
    (h0 : s.k0 = some q0) (h1 : s.k1 = some q1) (h2 : s.k2 = some q2) :
    exec .enc s = .next ((s.writeS (encryptBlock theRoms p q0 q1 q2)).writeDout
      (stateToInt (encryptBlock theRoms p q0 q1 q2))) :=
  execEnc_next.2 (.inr ⟨hs, .inr ⟨p, hp, .inr ⟨q0, h0, .inr ⟨q1, h1, .inr ⟨q2, h2, rfl⟩⟩⟩⟩⟩)

/-- Any one of the four registers empty is a missing source of ENC (R192). -/
theorem sourcesValid_enc_eq_false {s : State} (h : s.s = none ∨ s.k0 = none ∨ s.k1 = none ∨ s.k2 = none) :
    sourcesValid .enc s = false := by
  rcases h with h | h | h | h <;> simp [sourcesValid, State.vs, State.vk0, State.vk1, State.vk2, h]

/-- Settles O33, from what ENC answers and the words of a command without operands. -/
theorem encEncryptsTheState : Obligations.EncEncryptsTheState := by
  unfold Obligations.EncEncryptsTheState
  exact ⟨fun s p q0 q1 q2 hs hp h0 h1 h2 => ⟨_, _, _, rfl, rfl, rfl, exec_enc_of_sources hs hp h0 h1 h2⟩,
    fun s hs h => exec_eq_faulted_of_source_missing (i := .enc) hs rfl (sourcesValid_enc_eq_false h),
    decode_encode (i := .enc) rfl, reservedExactly_noOperand (by decide)⟩

/-! ### Runs of commands without a fault -/

section Runs
variable {s : State} {p m q0 q1 q2 : Matrix}

/-- Sending a well-formed command is executing it. -/
theorem runEvents_sends_cons {i : Instr} {t : State} (hwf : i.wellFormed = true) (h : exec i s = .next t)
    (is : List Instr) : runEvents (sends (i :: is)) s = runEvents (sends is) t := by
  have haccept : accept (encode i) s = .next t := (accept_of_decode_ok (decode_encode hwf) s).trans h
  have hcommit : commit (encode i) s = t := next_inj.1 (haccept.symm.trans (accept_eq_commit _ s))
  rw [← hcommit]
  exact runEvents_command_commit (encode i) (sends is) s

theorem exec_rds_of_state (hs : s.flt = false) (hm : s.s = some m) : exec .rds s = .next (s.writeDout (stateToInt m)) :=
  execRds_next.2 (.inr ⟨hs, .inr ⟨m, hm, rfl⟩⟩)

/-- The state at the end of a run from `s` that leaves `m` in S and reads it out. -/
def State.showing (s : State) (m : Matrix) : State := { s with s := some m, dout := some (stateToInt m), input := [] }

/-- What the eight transforms find at each of them: no fault, and the three keys. -/
structure HoldsKeys (q0 q1 q2 : Matrix) (s : State) : Prop where
  flt : s.flt = false
  k0 : s.k0 = some q0
  k1 : s.k1 = some q1
  k2 : s.k2 = some q2

theorem HoldsKeys.writeS (h : HoldsKeys q0 q1 q2 s) (m : Matrix) : HoldsKeys q0 q1 q2 (s.writeS m) :=
  ⟨h.flt, h.k0, h.k1, h.k2⟩

theorem HoldsKeys.writeDout (h : HoldsKeys q0 q1 q2 s) (v : Block) : HoldsKeys q0 q1 q2 (s.writeDout v) :=
  ⟨h.flt, h.k0, h.k1, h.k2⟩

theorem runEvents_rds (hs : s.flt = false) (hm : s.s = some m) :
    runEvents (sends [.rds]) s = .next (s.showing m) := by
  rw [runEvents_sends_cons rfl (exec_rds_of_state hs hm)]
  simp [sends, State.showing, State.writeDout, hm]

theorem runEvents_enc (hs : HoldsKeys q0 q1 q2 s) (hp : s.s = some p) :
    runEvents (sends [.enc]) s = .next (s.showing (encryptBlock theRoms p q0 q1 q2)) := by
  rw [runEvents_sends_cons rfl (exec_enc_of_sources hs.flt hp hs.k0 hs.k1 hs.k2)]
  rfl

/-! ### The eight transforms -/

/-- The commands of ENCSTEPS before its RDS, each with what it does to S (R191, R194). -/
def engineTransforms (q0 q1 q2 : Matrix) : List (Instr × (Matrix → Matrix)) :=
  [(.ark 0#4, (addRoundKey · q0)),
    (.sub, substituteNibbles theRoms), (.shr, shiftRows), (.mix, mixColumns), (.ark 1#4, (addRoundKey · q1)),
    (.sub, substituteNibbles theRoms), (.shr, shiftRows), (.ark 2#4, (addRoundKey · q2))]

/-- The matrix after these transforms in turn. -/
def applyTransforms (ts : List (Instr × (Matrix → Matrix))) (m : Matrix) : Matrix :=
  ts.foldl (fun m x => x.2 m) m

theorem encSteps_eq (q0 q1 q2 : Matrix) : encSteps = (engineTransforms q0 q1 q2).map Prod.fst ++ [.rds] := rfl

theorem encTraced_eq (q0 q1 q2 : Matrix) :
    encTraced = ((engineTransforms q0 q1 q2).map Prod.fst).flatMap fun i => [i, .rds] := rfl

theorem applyTransforms_engineTransforms (p q0 q1 q2 : Matrix) :
    applyTransforms (engineTransforms q0 q1 q2) p = encryptBlock theRoms p q0 q1 q2 := rfl

/-- Stage `n` is what the first `n + 1` transforms make of the block (R191). -/
theorem getElem?_encryptStages (p q0 q1 q2 : Matrix) {n : Nat} (hn : n < 8) :
    (encryptStages theRoms p q0 q1 q2)[n]? = some (applyTransforms ((engineTransforms q0 q1 q2).take (n + 1)) p) := by
  have hstages : encryptStages theRoms p q0 q1 q2 =
      ((engineTransforms q0 q1 q2).scanl (fun m x => x.2 m) p).tail := rfl
  rw [hstages, List.getElem?_tail, List.getElem?_scanl]
  exact if_pos hn

/-- Each of the transforms is well formed, and applies its function to S and nothing else. -/
theorem exec_engineTransform {x : Instr × (Matrix → Matrix)} (hx : x ∈ engineTransforms q0 q1 q2)
    (hs : HoldsKeys q0 q1 q2 s) (hm : s.s = some m) :
    x.1.wellFormed = true ∧ exec x.1 s = .next (s.writeS (x.2 m)) := by
  obtain ⟨hf, h0, h1, h2⟩ := hs
  have hsub : exec .sub s = .next (s.writeS (substituteNibbles theRoms m)) :=
    execSub_next.2 (.inr ⟨hf, .inr ⟨m, hm, rfl⟩⟩)
  have hshr : exec .shr s = .next (s.writeS (shiftRows m)) := execShr_next.2 (.inr ⟨hf, .inr ⟨m, hm, rfl⟩⟩)
  have hmix : exec .mix s = .next (s.writeS (mixColumns m)) := execMix_next.2 (.inr ⟨hf, .inr ⟨m, hm, rfl⟩⟩)
  simp only [engineTransforms, List.mem_cons, List.not_mem_nil, or_false] at hx
  rcases hx with rfl | rfl | rfl | rfl | rfl | rfl | rfl | rfl
  · exact ⟨rfl, exec_ark_of_sources (k := .k0) hf hm h0⟩
  · exact ⟨rfl, hsub⟩
  · exact ⟨rfl, hshr⟩
  · exact ⟨rfl, hmix⟩
  · exact ⟨rfl, exec_ark_of_sources (k := .k1) hf hm h1⟩
  · exact ⟨rfl, hsub⟩
  · exact ⟨rfl, hshr⟩
  · exact ⟨rfl, exec_ark_of_sources (k := .k2) hf hm h2⟩

/-- Some of the transforms, then an RDS: S and DOUT hold what they make of the block. -/
theorem runEvents_transforms_rds {ts : List (Instr × (Matrix → Matrix))} (hts : ts ⊆ engineTransforms q0 q1 q2)
    (hs : HoldsKeys q0 q1 q2 s) (hm : s.s = some m) :
    runEvents (sends (ts.map Prod.fst ++ [.rds])) s = .next (s.showing (applyTransforms ts m)) := by
  induction ts generalizing s m with
  | nil => exact runEvents_rds hs.flt hm
  | cons x ts ih =>
    obtain ⟨hx, hts⟩ := List.cons_subset.1 hts
    obtain ⟨hwf, hexec⟩ := exec_engineTransform hx hs hm
    exact (runEvents_sends_cons hwf hexec _).trans (ih hts (hs.writeS _) rfl)

/-- An RDS after each of the transforms as well: the same end, since the reads change DOUT alone. -/
theorem runEvents_traced {x : Instr × (Matrix → Matrix)} {ts : List (Instr × (Matrix → Matrix))}
    (hts : x :: ts ⊆ engineTransforms q0 q1 q2) (hs : HoldsKeys q0 q1 q2 s) (hm : s.s = some m) :
    runEvents (sends (((x :: ts).map Prod.fst).flatMap fun i => [i, .rds])) s =
      .next (s.showing (applyTransforms (x :: ts) m)) := by
  induction ts generalizing x s m with
  | nil => exact runEvents_transforms_rds hts hs hm
  | cons y ts ih =>
    obtain ⟨hx, hts⟩ := List.cons_subset.1 hts
    obtain ⟨hwf, hexec⟩ := exec_engineTransform hx hs hm
    have hread : exec .rds (s.writeS (x.2 m)) = _ := exec_rds_of_state hs.flt rfl
    exact (runEvents_sends_cons hwf hexec _).trans
      ((runEvents_sends_cons rfl hread _).trans (ih hts ((hs.writeS _).writeDout _) rfl))

theorem runEvents_encSteps (hs : HoldsKeys q0 q1 q2 s) (hp : s.s = some p) :
    runEvents (sends encSteps) s = .next (s.showing (encryptBlock theRoms p q0 q1 q2)) := by
  rw [encSteps_eq q0 q1 q2, ← applyTransforms_engineTransforms]
  exact runEvents_transforms_rds (List.Subset.refl (engineTransforms q0 q1 q2)) hs hp

theorem runEvents_encTraced (hs : HoldsKeys q0 q1 q2 s) (hp : s.s = some p) :
    runEvents (sends encTraced) s = .next (s.showing (encryptBlock theRoms p q0 q1 q2)) := by
  rw [encTraced_eq q0 q1 q2, ← applyTransforms_engineTransforms]
  exact runEvents_traced (List.Subset.refl (engineTransforms q0 q1 q2)) hs hp

/-- The first commands of ENCSTEPS, then an RDS: what the first transforms make of the block is in DOUT. -/
theorem runEvents_take_encSteps (hs : HoldsKeys q0 q1 q2 s) (hp : s.s = some p) {n : Nat} (hn : n ≤ 8) :
    runEvents (sends (encSteps.take n ++ [.rds])) s =
      .next (s.showing (applyTransforms ((engineTransforms q0 q1 q2).take n) p)) := by
  rw [encSteps_eq q0 q1 q2, List.take_append_of_le_length hn, ← List.map_take]
  exact runEvents_transforms_rds (List.take_subset n _) hs hp

end Runs

/-- Settles O44: both runs show the encrypted block. -/
theorem encAgreesWithTheNineSteps : Obligations.EncAgreesWithTheNineSteps := by
  unfold Obligations.EncAgreesWithTheNineSteps
  intro s hf hs h0 h1 h2
  obtain ⟨p, hp⟩ := Option.isSome_iff_exists.1 hs
  obtain ⟨q0, h0⟩ := Option.isSome_iff_exists.1 h0
  obtain ⟨q1, h1⟩ := Option.isSome_iff_exists.1 h1
  obtain ⟨q2, h2⟩ := Option.isSome_iff_exists.1 h2
  have hkeys : HoldsKeys q0 q1 q2 s := ⟨hf, h0, h1, h2⟩
  exact ⟨_, runEvents_enc hkeys hp, runEvents_encSteps hkeys hp, hf⟩

/-- Settles O45: every stage by the run of the first transforms and a read, and the traced run by its end. -/
theorem traceHookShowsEveryStage : Obligations.TraceHookShowsEveryStage := by
  unfold Obligations.TraceHookShowsEveryStage
  intro s p q0 q1 q2 hf hp h0 h1 h2
  have hkeys : HoldsKeys q0 q1 q2 s := ⟨hf, h0, h1, h2⟩
  refine ⟨fun n hn => ?_, rfl, (runEvents_encTraced hkeys hp).trans (runEvents_encSteps hkeys hp).symm⟩
  exact ⟨_, _, runEvents_take_encSteps hkeys hp hn, getElem?_encryptStages p q0 q1 q2 hn, rfl⟩

end Sys2Proof.Machine

/-! PROOFS, host and ECB layer family (45_host_ecb_layer.md). The host's procedures are steps that can answer an
error, so each is one chain of binds in `Except`: the key, then the blocks of the text in order. The command sequence
at the port keeps the key schedule in the CORE from block to block. -/

namespace Sys2Proof.Machine
open Sys2Proof.Claims

/-! ### One block of text -/

theorem charCode_of_gt {c : Char} (h : 255 < c.toNat) : charCode c = .error .characterCode := if_neg (by omega)

theorem textBlockToInt_pair (c0 c1 : Char) :
    textBlockToInt [c0, c1] = do return (← charCode c0) ++ (← charCode c1) := by
  simp only [textBlockToInt]
  cases charCode c0 <;> cases charCode c1 <;> rfl

theorem textBlockToInt_of_le {c0 c1 : Char} (h0 : c0.toNat ≤ 255) (h1 : c1.toNat ≤ 255) :
    textBlockToInt [c0, c1] = .ok (BitVec.ofNat 8 c0.toNat ++ BitVec.ofNat 8 c1.toNat) := by
  rw [textBlockToInt_pair, charCode_of_le h0, charCode_of_le h1]
  rfl

theorem exists_textBlockToInt_of_le {c0 c1 : Char} (h0 : c0.toNat ≤ 255) (h1 : c1.toNat ≤ 255) :
    ∃ b, textBlockToInt [c0, c1] = .ok b := ⟨_, textBlockToInt_of_le h0 h1⟩

theorem textBlockToInt_of_gt {c0 c1 : Char} (h : 255 < c0.toNat ∨ 255 < c1.toNat) :
    textBlockToInt [c0, c1] = .error .characterCode := by
  rw [textBlockToInt_pair]
  rcases Nat.lt_or_ge 255 c0.toNat with h0 | h0
  · rw [charCode_of_gt h0]
    rfl
  · rw [charCode_of_le h0, charCode_of_gt (h.resolve_left h0.not_gt)]
    rfl

theorem textBlockToInt_of_length_ne_two {text : List Char} (h : text.length ≠ 2) :
    textBlockToInt text = .error .blockLength := by
  match text with
  | [] | [_] | _ :: _ :: _ :: _ => rfl
  | [_, _] => exact absurd rfl h

/-- The `<<` and `|` form of R206. -/
theorem byte_append_byte_eq_shift_or {a b : Nat} (ha : a ≤ 255) (hb : b ≤ 255) :
    BitVec.ofNat 8 a ++ BitVec.ofNat 8 b = (BitVec.ofNat 16 a <<< 8) ||| BitVec.ofNat 16 b := by
  have hwide : ∀ n ≤ 255, (BitVec.ofNat 8 n).setWidth 16 = BitVec.ofNat 16 n := fun n hn =>
    BitVec.setWidth_ofNat_of_le_of_lt (by decide) (by omega)
  rw [← hwide a ha, ← hwide b hb, ← BitVec.setWidth_append_eq_shiftLeft_setWidth_or]
  exact (BitVec.setWidth_eq _).symm

/-- The columns of a packed state are the two bytes of the integer (R121). -/
theorem column_intToState_append (b0 b1 : Byte) :
    nib (intToState (b0 ++ b1)) 0 0 ++ nib (intToState (b0 ++ b1)) 1 0 = b0 ∧
      nib (intToState (b0 ++ b1)) 0 1 ++ nib (intToState (b0 ++ b1)) 1 1 = b1 := by
  constructor
  · exact (BitVec.extractLsb'_append_extractLsb'_eq_extractLsb' rfl).trans BitVec.extractLsb'_append_eq_left
  · exact (BitVec.extractLsb'_append_extractLsb'_eq_extractLsb' rfl).trans BitVec.extractLsb'_append_eq_right

/-- Settles O51: the block of two accepted codes, whose bytes are the columns of the state, and the two refusals. -/
theorem textBlockIsTwoCharacters : Obligations.TextBlockIsTwoCharacters := by
  unfold Obligations.TextBlockIsTwoCharacters
  exact ⟨fun c0 c1 h0 h1 => ⟨_, textBlockToInt_of_le h0 h1, byte_append_byte_eq_shift_or h0 h1,
    column_intToState_append _ _⟩, fun _ _ => textBlockToInt_of_gt, fun _ => textBlockToInt_of_length_ne_two⟩

/-! ### The blocks of a text -/

theorem chunksToInts_eq_mapM (cs : List (List Char)) : chunksToInts cs = cs.mapM (textBlockToInt ∘ padChunk) := by
  induction cs with
  | nil => rfl
  | cons c cs ih =>
    rw [List.mapM_cons, ← ih, chunksToInts, Function.comp_apply]
    cases textBlockToInt (padChunk c) <;> cases chunksToInts cs <;> rfl

/-- After an even number of characters the blocks are those of the two texts, in order (R209, R212). -/
theorem textBlocks_append {text : List Char} (h : text.length % 2 = 0) (text' : List Char) :
    textBlocks (text ++ text') = do return (← textBlocks text) ++ (← textBlocks text') := by
  simp only [textBlocks, chunksToInts_eq_mapM, chunks_append h, List.mapM_append]

/-- A last character without a partner is padded with NUL (R210), so a NUL after it changes no block. -/
theorem textBlocks_append_nul {text : List Char} (h : text.length % 2 = 1) :
    textBlocks (text ++ [nulChar]) = textBlocks text := by
  rcases text.eq_nil_or_concat' with rfl | ⟨init, c, rfl⟩
  · simp at h
  · have hinit : init.length % 2 = 0 := by simp only [List.length_append, List.length_singleton] at h; omega
    rw [List.append_assoc, textBlocks_append hinit, textBlocks_append hinit]
    rfl

/-- Accepted codes make one block for every two characters begun (R208, R209). -/
theorem exists_textBlocks_of_codesAccepted {text : List Char} (h : codesAccepted text) :
    ∃ bs, textBlocks text = .ok bs ∧ bs.length = (text.length + 1) / 2 := by
  induction text using chunks.induct with
  | case1 => exact ⟨[], rfl, rfl⟩
  | case2 c =>
    obtain ⟨b, hb⟩ := exists_textBlockToInt_of_le (h c (by simp)) (show nulChar.toNat ≤ 255 by decide)
    exact ⟨[b], by simp only [textBlocks, chunks, chunksToInts, padChunk, hb], by simp⟩
  | case3 c0 c1 rest ih =>
    obtain ⟨b, hb⟩ := exists_textBlockToInt_of_le (h c0 (by simp)) (h c1 (by simp))
    obtain ⟨bs, hbs, hlen⟩ := ih fun c hc => h c (by simp [hc])
    refine ⟨b :: bs, ?_, ?_⟩
    · rw [textBlocks] at hbs
      simp only [textBlocks, chunks, chunksToInts, padChunk, hb, hbs]
    · simp only [List.length_cons]
      omega

/-! ### ECB -/

theorem encryptEcb_eq_bind (roms : Roms) (text : List Char) (key : Int) :
    encryptEcb roms text key = do return encryptBlocks roms (← checkKey key) (← textBlocks text) := by
  rw [encryptEcb]
  cases checkKey key <;> cases textBlocks text <;> rfl

theorem encryptSingle_eq_bind (roms : Roms) (text : List Char) (key : Int) :
    encryptSingle roms text key = do
      let k ← checkKey key
      return encrypt roms (← textBlockToInt text) k := by
  rw [encryptSingle]
  cases checkKey key <;> cases textBlockToInt text <;> rfl

theorem runEcb_eq_bind (text : List Char) (key : Int) (s : State) :
    runEcb text key s = checkKey key >>= fun k => textBlocks text >>= fun bs =>
      if (issue (setKey k) s).flt then .error .coreFault else runBlocks bs (issue (setKey k) s) := by
  rw [runEcb]
  cases checkKey key <;> cases textBlocks text <;> rfl

/-- Settles O52: the key check comes first in all three procedures. -/
theorem keyOutOfRangeIsRefused : Obligations.KeyOutOfRangeIsRefused := by
  unfold Obligations.KeyOutOfRangeIsRefused
  intro roms text key s hkey
  have hcheck : checkKey key = .error .keyRange := checkKey_of_not_mem (by omega)
  rw [encryptEcb_eq_bind, encryptSingle_eq_bind, runEcb_eq_bind, hcheck]
  exact ⟨rfl, rfl, rfl⟩

/-- Settles O53: two bytes for each block. -/
theorem ecbLengthLaw : Obligations.EcbLengthLaw := by
  unfold Obligations.EcbLengthLaw
  intro roms text key hcodes hlow hhigh
  obtain ⟨bs, hbs, hlen⟩ := exists_textBlocks_of_codesAccepted hcodes
  refine ⟨encryptBlocks roms (BitVec.ofInt 16 key) bs, ?_, ?_⟩
  · rw [encryptEcb_eq_bind, checkKey_of_mem ⟨hlow, hhigh⟩, hbs]
    rfl
  · rw [length_encryptBlocks, hlen, Nat.mul_comm]

/-- Settles O54: both texts have the same blocks. -/
theorem padIsIndistinguishableFromNul : Obligations.PadIsIndistinguishableFromNul := by
  unfold Obligations.PadIsIndistinguishableFromNul
  intro roms text key h
  rw [encryptEcb_eq_bind, encryptEcb_eq_bind, textBlocks_append_nul h]

/-- Settles O55: the blocks are cut in two, and so is what they are encrypted to. -/
theorem ecbBlocksAreIndependent : Obligations.EcbBlocksAreIndependent := by
  unfold Obligations.EcbBlocksAreIndependent
  intro roms text text' key h
  simp only [encryptEcb_eq_bind, textBlocks_append h]
  rcases checkKey key with e | k
  · rfl
  rcases textBlocks text with e | bs
  · rfl
  rcases textBlocks text' with e | bs'
  · rfl
  exact congrArg Except.ok (encryptBlocks_append roms k bs bs')

/-! ### The command sequence at the port -/

/-- Sending a well-formed command is executing it. -/
theorem issue_cons_of_exec {i : Instr} {s t : State} (hwf : i.wellFormed = true) (h : exec i s = .next t)
    (is : List Instr) : issue (i :: is) s = issue is t := by
  have haccept : accept (encode i) s = .next t := (accept_of_decode_ok (decode_encode hwf) s).trans h
  rw [issue_cons, next_inj.1 (haccept.symm.trans (accept_eq_commit _ s))]

/-- The CORE holds the key `k` and its two round keys (R177), and no fault. -/
def HoldsSchedule (k : Block) (s : State) : Prop :=
  HoldsKeys (intToState k) (expandKey theRoms (intToState k) .first)
    (expandKey theRoms (expandKey theRoms (intToState k) .first) .second) s

/-- `SETKEY k` on a CORE that is not faulted. -/
theorem issue_setKey_holdsSchedule (k : Block) {s : State} (hs : s.flt = false) :
    HoldsSchedule k (issue (setKey k) s) := by
  have hldk : exec (.ldk k) s = .next ((s.writeKey .k0 (intToState k)).clearRoundKeys) :=
    (execLdk_next k).2 (.inr ⟨hs, rfl⟩)
  have hksch : exec .ksch (s.writeKey .k0 (intToState k)).clearRoundKeys = _ := exec_ksch_of_key_valid hs rfl
  rw [setKey, issue_cons_of_exec rfl hldk, issue_cons_of_exec rfl hksch]
  exact ⟨hs, rfl, rfl, rfl⟩

/-- `ENCBLK b` shows the block encrypted under the key the CORE holds, and the CORE still holds it. -/
theorem issue_encBlk {k : Block} {s : State} (hs : HoldsSchedule k s) (b : Block) :
    HoldsSchedule k (issue (encBlk b) s) ∧ (issue (encBlk b) s).doutPort = some (encrypt theRoms b k) := by
  have hlds : exec (.lds b) s = .next (s.writeS (intToState b)) := (execLds_next b).2 (.inr ⟨hs.flt, rfl⟩)
  have henc : exec .enc (s.writeS (intToState b)) = _ := exec_enc_of_sources hs.flt rfl hs.k0 hs.k1 hs.k2
  rw [encBlk, issue_cons_of_exec rfl hlds, issue_cons_of_exec rfl henc]
  exact ⟨(HoldsKeys.writeS hs _).writeS _ |>.writeDout _, rfl⟩

/-- Block after block the schedule stays in the CORE, so no command faults. -/
theorem runBlocks_of_holdsSchedule {k : Block} {s : State} (hs : HoldsSchedule k s) (bs : List Block) :
    runBlocks bs s = .ok (encryptBlocks theRoms k bs) := by
  induction bs generalizing s with
  | nil => rfl
  | cons b bs ih =>
    obtain ⟨hkeys, hdout⟩ := issue_encBlk hs b
    simp [runBlocks, encryptBlocks, hkeys.flt, hdout, ih hkeys]

/-- Settles O56: the two procedures check alike, and from reset `SETKEY` leaves the key schedule in the CORE. -/
theorem commandSequenceRealisesEcb : Obligations.CommandSequenceRealisesEcb := by
  unfold Obligations.CommandSequenceRealisesEcb
  intro text key
  have hkeys (k : Block) : HoldsSchedule k (issue (setKey k) State.reset) := issue_setKey_holdsSchedule k rfl
  simp only [runEcb_eq_bind, encryptEcb_eq_bind, (hkeys _).flt, runBlocks_of_holdsSchedule (hkeys _)]
  rfl

/-! ### Base64 -/

/-- Settles O57, group by group of three bytes. -/
theorem base64Length : Obligations.Base64Length := by
  unfold Obligations.Base64Length
  intro bytes
  induction bytes using base64.induct with
  | case1 => rfl
  | case2 x => simp [base64]
  | case3 x y => simp [base64]
  | case4 x y z rest ih =>
    simp only [base64, List.length_cons, ih]
    omega

end Sys2Proof.Machine

/-! PROOFS, exceptions family. What a word does in the faulted CORE and how a fault is recorded, from the state family's
inversion lemmas; and, for the host's discipline, that the valid bits follow the history of commands (R266). -/

namespace Sys2Proof.Machine
open Sys2Proof.Claims

variable {h : List Instr} {i : Instr} {s t : State}

/-! ### Outcomes -/

theorem exists_exec_eq_next (i : Instr) (s : State) : ∃ t, exec i s = .next t :=
  (exec_withInput i [] s).imp fun _ => And.left

theorem exists_step_eq_next (s : State) : ∃ t, step s = .next t := by
  rcases takeEvent_cases s with ⟨-, he⟩ | ⟨rest, hin, -⟩ | ⟨w, rest, hin, -⟩
  · exact ⟨s, by rw [step, he]⟩
  · exact ⟨_, step_of_reset hin⟩
  · exact ⟨_, (step_of_command hin).trans (accept_eq_commit w _)⟩

/-- Settles O9. -/
theorem everyCommandAnswersANextState : Obligations.EveryCommandAnswersANextState := by
  unfold Obligations.EveryCommandAnswersANextState
  exact ⟨exists_exec_eq_next, fun w s => ⟨_, accept_eq_commit w s⟩, exists_step_eq_next⟩

/-! ### Fault entry and the faulted CORE -/

/-- Settles O10, from everything an accepted word can do. -/
theorem faultEntryRecordsTheFirstCause : Obligations.FaultEntryRecordsTheFirstCause := by
  unfold Obligations.FaultEntryRecordsTheFirstCause
  intro w s hs
  have haccept : accept w s = .next (commit w s) := accept_eq_commit w s
  rcases accept_next_cases haccept with ⟨hf, -⟩ | ⟨-, hc, ht⟩ | ⟨-, hc, i, -, heff⟩
  · exact absurd hf (by simp [hs])
  · exact ⟨fun _ => haccept.trans (congrArg _ ht), fun hno => absurd hno hc⟩
  · obtain ⟨hflt, hcause, hfcmd, -⟩ := heff.faultRegisters
    exact ⟨fun hne => absurd hc hne, fun _ => ⟨_, haccept, hflt.trans hs, hcause, hfcmd⟩⟩

theorem runEvents_commands_of_faulted (hf : s.flt = true) (ws : List Command) :
    runEvents (ws.map .command) s = .next { s with input := [] } := by
  induction ws with
  | nil => rfl
  | cons w ws ih => rw [List.map_cons, runEvents_command_commit, commit_of_faulted hf, ih]

/-- Settles O11: a command, a word, and word after word. -/
theorem faultedCoreIgnoresEveryCommand : Obligations.FaultedCoreIgnoresEveryCommand := by
  unfold Obligations.FaultedCoreIgnoresEveryCommand
  exact fun s hf => ⟨exec_of_faulted hf, accept_of_faulted hf, runEvents_commands_of_faulted hf⟩

/-- Settles O12, one event at a time. -/
theorem onlyResetLeavesTheFaultedState : Obligations.OnlyResetLeavesTheFaultedState := by
  unfold Obligations.OnlyResetLeavesTheFaultedState
  intro s t hf hstep
  rcases takeEvent_cases s with ⟨hin, he⟩ | ⟨rest, hin, -⟩ | ⟨w, rest, hin, -⟩
  · right
    rw [step, he, next_inj] at hstep
    rw [hstep, hin, List.tail_nil, ← hin]
  · exact .inl ⟨rest, hin, next_inj.1 ((step_of_reset hin).symm.trans hstep)⟩
  · right
    rw [step_of_command hin, accept_of_faulted (s := { s with input := rest }) hf, next_inj] at hstep
    rw [hstep, hin, List.tail_cons]

/-! ### What the commands sent have made -/

theorem firstStepDone_iff_mem : firstStepDone h = true ↔ .kexp 0#4 ∈ h ∨ .ksch ∈ h := by
  simp [firstStepDone, and_or_left, exists_or]

theorem secondStepDone_of_ksch_mem (hk : .ksch ∈ h) : secondStepDone h = true := by
  induction h with
  | nil => cases hk
  | cons a h ih =>
    rcases List.mem_cons.1 hk with rfl | hk
    · rfl
    · simp [secondStepDone, ih hk]

theorem firstStepDone_of_secondStepDone (h2 : secondStepDone h = true) : firstStepDone h = true := by
  induction h with
  | nil => cases h2
  | cons a h ih =>
    simp only [secondStepDone, firstStepDone, Bool.or_eq_true, Bool.and_eq_true, List.any_cons] at h2 ih ⊢
    tauto

/-- A `KEXP 1` makes round key 2 after a `KEXP 0`; after a `KSCH` it is made already. -/
theorem secondStepDone_concat_iff (h : List Instr) (i : Instr) :
    secondStepDone (h ++ [i]) = true ↔
      secondStepDone h = true ∨ (i = .kexp 1#4 ∧ firstStepDone h = true) ∨ i = .ksch := by
  have hksch := @secondStepDone_of_ksch_mem h
  have hzero : h.any (· == .kexp 0#4) = true ↔ .kexp 0#4 ∈ h := by simp
  simp only [secondStepDone_concat, Bool.or_eq_true, Bool.and_eq_true, beq_iff_eq, hzero, firstStepDone_iff_mem]
  tauto

theorem roundKeyOneMade_of_roundKeyTwoMade (h2 : roundKeyTwoMade h = true) : roundKeyOneMade h = true := by
  obtain ⟨g, hg, h2⟩ := (Option.any_eq_true _ _).1 h2
  exact (Option.any_eq_true _ _).2 ⟨g, hg, firstStepDone_of_secondStepDone h2⟩

theorem keyLoaded_of_roundKeyOneMade (h1 : roundKeyOneMade h = true) : keyLoaded h = true := by
  obtain ⟨g, hg, -⟩ := (Option.any_eq_true _ _).1 h1
  simp [keyLoaded, hg]

theorem hasLds_concat_iff (h : List Instr) (i : Instr) :
    hasLds (h ++ [i]) = true ↔ hasLds h = true ∨ ∃ x, i = .lds x := by
  rw [hasLds_concat]
  cases i <;> simp [hasLds]

theorem keyLoaded_concat_iff (h : List Instr) (i : Instr) :
    keyLoaded (h ++ [i]) = true ↔ keyLoaded h = true ∨ ∃ x, i = .ldk x := by
  rw [keyLoaded, keyLoaded, sinceLastLdk_concat]
  cases i <;> simp

theorem sinceLastLdk_concat_of_not_ldk (h : List Instr) (hldk : ¬∃ x, i = .ldk x) :
    sinceLastLdk (h ++ [i]) = (sinceLastLdk h).map (· ++ [i]) := by
  rw [sinceLastLdk_concat]
  cases i with
  | ldk x => exact absurd ⟨x, rfl⟩ hldk
  | _ => rfl

/-- A command whose needs are met fills or empties K[1] in the history as R25 says of VK1. -/
theorem roundKeyOneMade_concat_iff (hi : needsMet h i = true) :
    roundKeyOneMade (h ++ [i]) = true ↔
      (roundKeyOneMade h = true ∧ ¬∃ x, i = .ldk x) ∨ i = .kexp 0#4 ∨ i = .ksch := by
  by_cases hldk : ∃ x, i = .ldk x
  · obtain ⟨x, rfl⟩ := hldk
    simp [roundKeyOneMade, sinceLastLdk_concat, firstStepDone]
  · have hneed : i = .kexp 0#4 ∨ i = .ksch → keyLoaded h = true := by rintro (rfl | rfl) <;> exact hi
    rw [roundKeyOneMade, sinceLastLdk_concat_of_not_ldk h hldk, roundKeyOneMade]
    rw [keyLoaded] at hneed
    cases hg : sinceLastLdk h with
    | none => simpa [hg] using hneed
    | some g =>
      simp only [Option.map_some, Option.any_some, firstStepDone_concat, Bool.or_eq_true, beq_iff_eq, hldk,
        not_false_eq_true, and_true]

/-- A command whose needs are met fills or empties K[2] in the history as R25 says of VK2. -/
theorem roundKeyTwoMade_concat_iff (hi : needsMet h i = true) :
    roundKeyTwoMade (h ++ [i]) = true ↔
      (roundKeyTwoMade h = true ∧ ¬∃ x, i = .ldk x) ∨ i = .kexp 1#4 ∨ i = .ksch := by
  by_cases hldk : ∃ x, i = .ldk x
  · obtain ⟨x, rfl⟩ := hldk
    simp [roundKeyTwoMade, sinceLastLdk_concat, secondStepDone]
  · have hkexp : i = .kexp 1#4 → roundKeyOneMade h = true := by rintro rfl; exact hi
    have hksch : i = .ksch → keyLoaded h = true := by rintro rfl; exact hi
    rw [roundKeyTwoMade, sinceLastLdk_concat_of_not_ldk h hldk, roundKeyTwoMade]
    rw [keyLoaded] at hksch
    rw [roundKeyOneMade] at hkexp
    cases hg : sinceLastLdk h with
    | none => simpa [hg] using And.intro hkexp hksch
    | some g =>
      simp only [hg, Option.any_some, Option.map_some] at hkexp ⊢
      rw [secondStepDone_concat_iff]
      tauto

/-! ### The valid bits follow the history -/

theorem HistoryCoherent.key_isSome (hs : HistoryCoherent h s) (k : KeyIndex) : (s.key k).isSome = keyMade h k := by
  obtain ⟨-, -, h0, h1, h2⟩ := hs
  cases k <;> assumption

/-- The needs of R266 are the sources of R232, read off the history. -/
theorem HistoryCoherent.needsMet_eq_sourcesValid (hs : HistoryCoherent h s) (i : Instr) :
    needsMet h i = sourcesValid i s := by
  obtain ⟨-, hvs, h0, h1, h2⟩ := id hs
  cases i with
  | nop | lds _ | ldk _ | gfm _ _ | sbx _ | gfn _ _ => rfl
  | rds | sub | shr | mix => exact hvs.symm
  | ksch => exact h0.symm
  | rdk k => simp only [needsMet, sourcesValid, hs.key_isSome]
  | ark k => simp only [needsMet, sourcesValid, hs.key_isSome, hvs]
  | kexp r => simp only [needsMet, sourcesValid, hs.key_isSome]
  | enc =>
    have hone := @roundKeyOneMade_of_roundKeyTwoMade h
    have hzero := @keyLoaded_of_roundKeyOneMade h
    rw [Bool.eq_iff_iff]
    simp only [needsMet, sourcesValid, hvs, h0, h1, h2, Bool.and_eq_true]
    tauto

/-- An effect keeps the agreement, with its command at the end of the history. -/
theorem Effect.historyCoherent (heff : Effect i s t) (hs : HistoryCoherent h s) (hi : needsMet h i = true) :
    HistoryCoherent (h ++ [i]) t := by
  obtain ⟨hflt, -⟩ := heff.faultRegisters
  obtain ⟨bs, b0, b1, b2, -⟩ := heff.validBits
  obtain ⟨hf, hvs, h0, h1, h2⟩ := hs
  rw [hvs, ← hasLds_concat_iff] at bs
  rw [h0, ← keyLoaded_concat_iff] at b0
  rw [h1, ← roundKeyOneMade_concat_iff hi] at b1
  rw [h2, ← roundKeyTwoMade_concat_iff hi] at b2
  exact ⟨hflt.trans hf, Bool.eq_iff_iff.2 bs, Bool.eq_iff_iff.2 b0, Bool.eq_iff_iff.2 b1, Bool.eq_iff_iff.2 b2⟩

/-- A disciplined sequence runs to a state that agrees with the longer history, command by command. -/
theorem exists_runEvents_historyCoherent {is : List Instr} (hs : HistoryCoherent h s)
    (hd : disciplined h is = true) : ∃ t, runEvents (sends is) s = .next t ∧ HistoryCoherent (h ++ is) t := by
  induction is generalizing h s with
  | nil => exact ⟨_, rfl, by rwa [List.append_nil]⟩
  | cons i is ih =>
    obtain ⟨⟨hwf, hi⟩, hrest⟩ : (i.wellFormed = true ∧ needsMet h i = true) ∧ disciplined (h ++ [i]) is = true := by
      simpa [disciplined] using hd
    obtain ⟨u, hu, heff⟩ := exec_of_sources_valid hs.1 hwf ((hs.needsMet_eq_sourcesValid i).symm.trans hi)
    obtain ⟨t, ht, hcoh⟩ := ih (heff.historyCoherent hs hi) hrest
    exact ⟨t, (runEvents_sends_cons hwf hu is).trans ht, by rwa [List.append_cons]⟩

/-- Settles O48: the agreement holds at reset, and says that there is no fault. -/
theorem disciplinedHostNeverCausesAFault : Obligations.DisciplinedHostNeverCausesAFault := by
  unfold Obligations.DisciplinedHostNeverCausesAFault
  intro is hd
  obtain ⟨t, ht, hflt, -⟩ := exists_runEvents_historyCoherent (s := State.reset) ⟨rfl, rfl, rfl, rfl, rfl⟩ hd
  exact ⟨t, ht, by simp [goodEnd, hflt]⟩

end Sys2Proof.Machine

/-! PROOFS, reset and hazards family (70_reset_and_hazards.md). The valid bits follow the history of any commands, needs met
or not, as long as no fault is taken (R266); and the start-up sequence runs command by command (R265). -/

namespace Sys2Proof.Machine

variable {h : List Instr} {i : Instr} {s t : State}

/-! ### The valid bits follow any history without a fault -/

/-- The agreement speaks of the data registers and FLT only. -/
theorem HistoryCoherent.withInput (hs : HistoryCoherent h s) (es : List HostEvent) :
    HistoryCoherent h { s with input := es } := hs

theorem historyCoherent_reset : HistoryCoherent [] State.reset := ⟨rfl, rfl, rfl, rfl, rfl⟩

/-- One well-formed command from a state that agrees with its history: with its needs met the agreement goes on, and without
them it takes the fault INVALID_SOURCE. -/
theorem HistoryCoherent.exec_cases (hs : HistoryCoherent h s) (hwf : i.wellFormed = true) (hexec : exec i s = .next t) :
    (needsMet h i = true ∧ HistoryCoherent (h ++ [i]) t) ∨
      (needsMet h i = false ∧ t = s.takeFault .invalidSource (encode i)) := by
  have hflt : s.flt = false := hs.1
  cases hi : needsMet h i with
  | false =>
    rw [hs.needsMet_eq_sourcesValid] at hi
    exact .inr ⟨rfl, next_inj.1 ((exec_of_source_missing hflt hwf hi).symm.trans hexec)⟩
  | true =>
    obtain ⟨u, hu, heff⟩ := exec_of_sources_valid hflt hwf ((hs.needsMet_eq_sourcesValid i).symm.trans hi)
    obtain rfl : t = u := next_inj.1 (hu.symm.trans hexec)
    exact .inl ⟨rfl, heff.historyCoherent hs hi⟩

theorem HistoryCoherent.exec_of_not_faulted (hs : HistoryCoherent h s) (hwf : i.wellFormed = true)
    (hexec : exec i s = .next t) (ht : t.flt = false) : HistoryCoherent (h ++ [i]) t := by
  rcases hs.exec_cases hwf hexec with ⟨-, hcoh⟩ | ⟨-, rfl⟩
  · exact hcoh
  · simp at ht

/-- Settles O60: such a step is the execution of the command its word decodes to. -/
theorem stepKeepsTheHistoryCoherent : Obligations.StepKeepsTheHistoryCoherent := by
  unfold Obligations.StepKeepsTheHistoryCoherent
  intro h i s t rest hs hin hwf hstep ht
  rw [step_of_command hin, accept_of_decode_ok (decode_encode hwf)] at hstep
  exact (hs.withInput rest).exec_of_not_faulted hwf hstep ht

/-! ### The needs of a command after any history without a fault -/

theorem runEvents_sends_of_faulted (hf : s.flt = true) (is : List Instr) :
    runEvents (sends is) s = .next { s with input := [] } := by
  have hruns := runEvents_commands_of_faulted hf (is.map encode)
  rwa [List.map_map] at hruns

/-- A run of well-formed commands that ends without a fault had none on the way, so the agreement reaches its end. -/
theorem HistoryCoherent.runEvents_sends {is : List Instr} (hs : HistoryCoherent h s)
    (hwf : ∀ j ∈ is, j.wellFormed = true) (hrun : runEvents (sends is) s = .next t) (ht : t.flt = false) :
    HistoryCoherent (h ++ is) t := by
  induction is generalizing h s with
  | nil =>
    obtain rfl := next_inj.1 ((runEvents_nil s).symm.trans hrun)
    rw [List.append_nil]
    exact hs.withInput []
  | cons i is ih =>
    obtain ⟨hi, his⟩ := List.forall_mem_cons.1 hwf
    obtain ⟨u, hu⟩ := exists_exec_eq_next i s
    rw [runEvents_sends_cons hi hu] at hrun
    have hflt : u.flt = false := by
      by_contra hf
      rw [runEvents_sends_of_faulted (Bool.eq_true_of_not_eq_false hf), next_inj] at hrun
      subst hrun
      exact hf ht
    rw [List.append_cons]
    exact ih (hs.exec_of_not_faulted hi hu hflt) his hrun

/-- Settles O47: the history's agreement holds at its end, and the command has its needs there or faults. -/
theorem commandFaultsExactlyWithoutItsNeeds : Obligations.CommandFaultsExactlyWithoutItsNeeds := by
  unfold Obligations.CommandFaultsExactlyWithoutItsNeeds
  intro h i s t hwf hi hrun hs hexec
  have hcoh : HistoryCoherent h s := historyCoherent_reset.runEvents_sends hwf hrun hs
  rcases hcoh.exec_cases hi hexec with ⟨hmet, hflt, -⟩ | ⟨hunmet, rfl⟩
  · simp [hmet, hflt]
  · simp [hunmet]

/-! ### The start-up sequence -/

/-- The state with the key `k` loaded and expanded (R177). -/
def State.withSchedule (s : State) (k : Block) : State :=
  let rk0 := intToState k
  let rk1 := expandKey theRoms rk0 .first
  { s with k0 := some rk0, k1 := some rk1, k2 := some (expandKey theRoms rk1 .second) }

theorem runEvents_lds (hs : s.flt = false) (p : Block) (is : List Instr) :
    runEvents (sends (.lds p :: is)) s = runEvents (sends is) (s.writeS (intToState p)) :=
  have hlds : exec (.lds p) s = .next (s.writeS (intToState p)) := (execLds_next p).2 (.inr ⟨hs, rfl⟩)
  runEvents_sends_cons rfl hlds is

/-- LDK and KSCH load the key and expand it. -/
theorem runEvents_setKey (hs : s.flt = false) (k : Block) (is : List Instr) :
    runEvents (sends (setKey k ++ is)) s = runEvents (sends is) (s.withSchedule k) := by
  have hldk : exec (.ldk k) s = .next (s.writeKey .k0 (intToState k)).clearRoundKeys :=
    (execLdk_next k).2 (.inr ⟨hs, rfl⟩)
  have hksch : exec .ksch (s.writeKey .k0 (intToState k)).clearRoundKeys = .next (s.withSchedule k) :=
    exec_ksch_of_key_valid hs rfl
  exact (runEvents_sends_cons rfl hldk _).trans (runEvents_sends_cons rfl hksch is)

/-- STATUS with every register valid and no fault (R29). -/
theorem status_of_all_valid (hf : s.flt = false) (hc : s.cause = .noFault) (hs : s.vs = true) (h0 : s.vk0 = true)
    (h1 : s.vk1 = true) (h2 : s.vk2 = true) (hd : s.vd = true) : s.status = 0x001F#16 := by
  rw [State.status, hf, hc, hs, h0, h1, h2, hd]
  rfl

/-- ENC on a CORE that has done nothing since reset but load a block, load a key and expand it. -/
theorem runEvents_enc_of_loaded (p k : Block) :
    ∃ t, runEvents (sends [.enc]) ((State.reset.withSchedule k).writeS (intToState p)) = .next t ∧
      t.dout = some (encrypt theRoms p k) ∧ t.status = 0x001F#16 :=
  ⟨_, runEvents_enc ⟨rfl, rfl, rfl, rfl⟩ rfl, rfl, status_of_all_valid rfl rfl rfl rfl rfl rfl rfl⟩

/-- Settles O46: loading the block and setting the key write different registers, so both orders reach the same ENC. -/
theorem startUpSequenceEncrypts : Obligations.StartUpSequenceEncrypts := by
  unfold Obligations.StartUpSequenceEncrypts
  intro s p k
  have hkeyFirst : runEvents (sends [.ldk k, .ksch, .lds p, .enc]) State.reset =
      runEvents (sends [.enc]) ((State.reset.withSchedule k).writeS (intToState p)) :=
    (runEvents_setKey rfl k [.lds p, .enc]).trans (runEvents_lds rfl p [.enc])
  have hblockFirst : runEvents (sends [.lds p, .ldk k, .ksch, .enc]) State.reset =
      runEvents (sends [.enc]) ((State.reset.withSchedule k).writeS (intToState p)) :=
    (runEvents_lds rfl p _).trans (runEvents_setKey rfl k [.enc])
  rw [runEvents_reset, runEvents_reset, hkeyFirst, hblockFirst]
  exact ⟨runEvents_enc_of_loaded p k, runEvents_enc_of_loaded p k⟩

end Sys2Proof.Machine
